-- ==== Sys2Proof/Word.lean ====
section
/-! DEFINITION. The widths of the spec (00_scope.md rule R4, 10_state.md rule R15, 30_encoding.md rule R44)
as Lean types: bytes, 16-bit patterns, the 32-bit request header and the 32-bit rates. -/

namespace Sys2Proof

/-- A byte of a buffer, or a companded code (`CODE_W` = 8, R4, R41). -/
abbrev Byte := BitVec 8

/-- A 16-bit pattern: a linear PCM sample in two's complement (`SAMPLE_W` = 16, R40), or the fields `A` and `R`. -/
abbrev Word := BitVec 16

/-- The request header word `REQ` (R44). -/
abbrev Header := BitVec 32

/-- A rate operand (`RATE_W` = 32, unsigned, R4 and R45). -/
abbrev Rate := BitVec 32

end Sys2Proof
end

