-- ==== Sys2Proof/Config.lean ====
section
/-! DEFINITION. The implementation parameters of 00_scope.md rule R4 that are not fixed widths: what
`decode_alaw` does on the negative half, the arithmetic and the tie rule of the resampler, and the greatest
buffer length. They are plain data, so a machine state can carry them and every statement quantifies over them.
(`SEG_END` and the masks are in Machine/Constants.lean, the arithmetics themselves in Machine/Arith.lean.) -/

namespace Sys2Proof

/-- `ALAW_DEC_NEG` (R4, R62, D13): the result of `decode_alaw` when the sign bit of the un-masked code is clear. -/
inductive AlawDecNeg where
  /-- The source's literal text, the default: the result is 0. -/
  | zero
  /-- The named alternative: the result is the negated magnitude. -/
  | negate
  deriving DecidableEq, Repr

/-- `NUM` (R4, R82, R93, D14): the arithmetic of the resampler, one of R4's two values (DESIGN CHOICE,
notes/assumptions/20.md). -/
inductive Num where
  /-- IEEE 754 binary64, one rounding per operation, the default. -/
  | binary64
  /-- Exact rational arithmetic, the named alternative. -/
  | exact
  deriving DecidableEq, Repr

/-- `ROUND` (R4, R84, D15): how `fround` resolves a value half-way between two integers. -/
inductive TieRule where
  /-- Away from zero, the default. -/
  | tiesAway
  /-- To the even neighbour, the named alternative. -/
  | tiesEven
  deriving DecidableEq, Repr

/-- The parameters of one instance (R4), fixed for a run (70_reset_and_hazards.md R123(c)).
`lenMax` is `LEN_MAX`; `none` is the unbounded reading that 30_encoding.md rule R53 allows. -/
structure Params where
  alawDecNeg : AlawDecNeg
  num : Num
  round : TieRule
  lenMax : Option Nat
  deriving DecidableEq, Repr

/-- The defaults of R4. `LEN_MAX` is open in the spec; the value here is the one it suggests, 2^32 - 1
(DESIGN CHOICE, notes/assumptions/1.md). -/
def Params.default : Params :=
  { alawDecNeg := .zero, num := .binary64, round := .tiesAway, lenMax := some 4294967295 }

/-- A length is within `LEN_MAX` (R53). -/
def withinLenMax (lenMax : Option Nat) (n : Nat) : Bool :=
  match lenMax with
  | none => true
  | some bound => decide (n ≤ bound)

end Sys2Proof
end

