-- ==== Sys2Proof/Syntax.lean ====
section
/-! DEFINITION. A request as the host writes it (10_state.md rule R15, 30_encoding.md rule R44) and the nine
operations of 30_encoding.md rule R48 as decoded instructions, each with exactly the operands it uses. -/

namespace Sys2Proof

/-- A request: the header word `REQ` (which holds `OP`, the reserved field and `A`) and the fields beside it
(R15, R44). `len` is the host's `LEN` field, which decoding compares with the bytes of `data` (R53). -/
structure Request where
  req : Header
  inRate : Rate
  outRate : Rate
  len : Nat
  data : List Byte
  deriving DecidableEq, Repr

/-- The nine operations (R47, R48). A per-sample operation carries the operand R45 assembles from `A`; a buffer
operation carries `DATA`, whose length is `LEN` once the request is decoded (R49 step 3; DESIGN CHOICE,
notes/assumptions/13.md); the resampler carries its rates too (R80). -/
inductive Instr where
  /-- `encode_alaw` (R61): the sample's 16-bit pattern. -/
  | encodeAlaw (sample : Word)
  /-- `decode_alaw` (R62): the code. -/
  | decodeAlaw (code : Byte)
  /-- `encode_ulaw` (R63): the sample's 16-bit pattern. -/
  | encodeUlaw (sample : Word)
  /-- `decode_ulaw` (R64): the code. -/
  | decodeUlaw (code : Byte)
  /-- `pcm_to_alaw` (R71): a linear PCM buffer. -/
  | pcmToAlaw (data : List Byte)
  /-- `alaw_to_pcm` (R72): one A-law code per byte. -/
  | alawToPcm (data : List Byte)
  /-- `pcm_to_ulaw` (R73): a linear PCM buffer. -/
  | pcmToUlaw (data : List Byte)
  /-- `ulaw_to_pcm` (R74): one µ-law code per byte. -/
  | ulawToPcm (data : List Byte)
  /-- `resample_pcm16` (R80): the two rates and a linear PCM buffer. -/
  | resamplePcm16 (inRate outRate : Rate) (data : List Byte)
  deriving DecidableEq, Repr

end Sys2Proof
end

