-- ==== Sys2Proof/Machine/State.lean ====
section
/-! DEFINITION. What the machine holds (10_state.md), as plain data: the parameters it is configured with, the
busy bit with the request being served, the responses given, and the requests the host has still to issue; and
the closed lists of reasons that a step can stop for (60_exceptions.md rule R100). -/

namespace Sys2Proof.Machine

/-- Fault reasons. A fault ends the operation with no response (60_exceptions.md R105). -/
inductive Fault where
  /-- `resample_pcm16`: the input position lies outside the input (42_resampler.md R88, R90). Safe: the spec
  names this fault, and no request reaches it under the two arithmetics of R4 with `LEN_MAX <= 2^32`. -/
  | indexOutOfRange
  /-- `resample_pcm16`: an interpolated value lies outside 16 bits (R88, R90). Safe: as above. -/
  | narrowOverflow
  /-- `MemRead` outside `IN` (20_memory.md R22 lets a model make this a fault). Raised by no operation: safe. -/
  | readOutside
  /-- `MemWrite` outside `OUT`, the same guard for R23. Raised by no operation: safe. -/
  | writeOutside
  deriving DecidableEq, Repr

/-- Refusal reasons. A refused request has no step and no response (60_exceptions.md R104). -/
inductive Refusal where
  /-- An instruction without a meaning in this model: raised by no arm of `exec`. -/
  | notModelled (mnemonic : String)
  /-- `OP` in 0x9 to 0xF (30_encoding.md R50). Safe: the spec refuses the request. -/
  | reservedOpcode
  /-- A reserved header bit or an unused field is not zero (R51, R52). Safe: the spec refuses the request. -/
  | reservedBits
  /-- `LEN` is not the length of `DATA`, or the input or the output would exceed `LEN_MAX` (R53). Safe: as above. -/
  | lengthOutOfRange
  /-- `resample_pcm16` with `IN_RATE = 0` and another `OUT_RATE` (42_resampler.md R86(b)). Safe: as above. -/
  | reservedRate
  deriving DecidableEq, Repr

/-- A response (10_state.md R16). `odata` is the output buffer, address space `OUT`. -/
structure Response where
  status : Byte
  r : Word
  olen : Nat
  odata : List Byte
  deriving DecidableEq, Repr

/-- The `busy` bit with what it stands for: an idle block holds nothing, a busy one holds the request it was
given (10_state.md R14). -/
inductive Busy where
  | idle
  | serving (request : Request)
  deriving DecidableEq, Repr

/-- The machine: one instance of the block and the host beside it. `params` and `busy` are the block's
(00_scope.md R4, 10_state.md R14). `responses` are the responses given so far, oldest first (R16: each is written
once, when an operation ends). `program` is the host's own bookkeeping, the requests it has still to issue, which
10_state.md R11 allows a model to keep. The last two fields are the model's own (DESIGN CHOICE,
notes/assumptions/2.md). -/
structure State where
  params : Params
  busy : Busy
  responses : List Response
  program : List Request
  deriving DecidableEq, Repr

/-- Right after reset (10_state.md section 10, 70_reset_and_hazards.md R120): idle, no request held, no response
pending, the parameters as configured (the defaults of R4), and nothing that the host has still to issue. -/
def State.reset : State :=
  { params := Params.default, busy := .idle, responses := [], program := [] }

end Sys2Proof.Machine
end

