-- ==== Sys2Proof/Machine/Constants.lean ====
section
/-! DEFINITION. The constants of 10_state.md rules R12 and R13, immutable and not readable by a request (D30). -/

namespace Sys2Proof.Machine

/-- `SEG_END` (R12; notes/assumptions/21.md). -/
def segEnd : List Nat := [0xFF, 0x1FF, 0x3FF, 0x7FF, 0xFFF, 0x1FFF, 0x3FFF, 0x7FFF]

/-- `BIAS` (R13). -/
def bias : Nat := 0x84

/-- `A_MASK_POS` (R13). -/
def aMaskPos : Nat := 0xD5

/-- `A_MASK_NEG`, also the exclusive-or constant of `decode_alaw` (R13). -/
def aMaskNeg : Nat := 0x55

/-- `U_MASK_POS` (R13). -/
def uMaskPos : Nat := 0xFF

/-- `U_MASK_NEG` (R13). -/
def uMaskNeg : Nat := 0x7F

/-- `CLAMP` (R13). -/
def clamp : Nat := 0x7F

/-- `A_NEG_OFFSET` (R13). -/
def aNegOffset : Nat := 8

/-- `A_DEC_ADD0` (R13). -/
def aDecAdd0 : Nat := 8

/-- `A_DEC_ADD1` (R13). -/
def aDecAdd1 : Nat := 0x108

/-- `SIGN_BIT` (R13). -/
def signBit : Nat := 0x80

/-- `SEG_MASK` (R13). -/
def segMask : Nat := 0x70

/-- `SEG_SHIFT` (R13). -/
def segShift : Nat := 4

/-- `QUANT_MASK` (R13). -/
def quantMask : Nat := 0x0F

end Sys2Proof.Machine
end

