-- ==== Sys2Proof/WellFormed.lean ====
section
/-! DEFINITION. Which instructions a request can carry: the one condition that the types of Syntax.lean leave
open is the bound of 30_encoding.md rule R53 on the input length. -/

namespace Sys2Proof

/-- The input buffer of an instruction, empty for the four per-sample operations (20_memory.md R20). -/
def Instr.input : Instr → List Byte
  | .encodeAlaw _ => []
  | .decodeAlaw _ => []
  | .encodeUlaw _ => []
  | .decodeUlaw _ => []
  | .pcmToAlaw data => data
  | .alawToPcm data => data
  | .pcmToUlaw data => data
  | .ulawToPcm data => data
  | .resamplePcm16 _ _ data => data

/-- The input is within `LEN_MAX` (R53). -/
def Instr.wellFormed (lenMax : Option Nat) (i : Instr) : Bool :=
  withinLenMax lenMax i.input.length

end Sys2Proof
end

