-- ==== Sys2Proof/Decode.lean ====
section
/-! DEFINITION. Decoding a request (30_encoding.md rules R44 to R53), total on every request and rejecting by
name, and after it the encoder. The opcode map of rule R48 is one table of match and mask. -/

namespace Sys2Proof

/-- Why decoding turns a request away (60_exceptions.md rule R100). -/
inductive Reject where
  /-- `OP` is 0x9 to 0xF (R50). -/
  | reservedOpcode
  /-- A reserved header bit or an unused field is not zero (R51, R52). -/
  | reservedBits
  /-- `LEN` is not the length of `DATA`, or is over `LEN_MAX` (R53). -/
  | lengthOutOfRange
  deriving DecidableEq, Repr

/-- The nine opcodes (R48). -/
inductive Op where
  | encodeAlaw | decodeAlaw | encodeUlaw | decodeUlaw
  | pcmToAlaw | alawToPcm | pcmToUlaw | ulawToPcm | resamplePcm16
  deriving DecidableEq, Repr

/-- The field `OP`, bits 31:28 (R44). -/
def headerOp (req : Header) : BitVec 4 := req.extractLsb' 28 4

/-- The reserved field `ZERO`, bits 27:16 (R44, R51). -/
def headerZero (req : Header) : BitVec 12 := req.extractLsb' 16 12

/-- The field `A`, bits 15:0 (R44). -/
def headerA (req : Header) : Word := req.extractLsb' 0 16

/-- One row of the opcode map (R48). -/
structure OpRow where
  op : Op
  pattern : Header
  mask : Header
  deriving DecidableEq, Repr

/-- The opcode map with its match and mask columns (R48). -/
def opTable : List OpRow :=
  [ { op := .encodeAlaw,    pattern := 0x00000000#32, mask := 0xFFFF0000#32 },
    { op := .decodeAlaw,    pattern := 0x10000000#32, mask := 0xFFFFFF00#32 },
    { op := .encodeUlaw,    pattern := 0x20000000#32, mask := 0xFFFF0000#32 },
    { op := .decodeUlaw,    pattern := 0x30000000#32, mask := 0xFFFFFF00#32 },
    { op := .pcmToAlaw,     pattern := 0x40000000#32, mask := 0xFFFFFFFF#32 },
    { op := .alawToPcm,     pattern := 0x50000000#32, mask := 0xFFFFFFFF#32 },
    { op := .pcmToUlaw,     pattern := 0x60000000#32, mask := 0xFFFFFFFF#32 },
    { op := .ulawToPcm,     pattern := 0x70000000#32, mask := 0xFFFFFFFF#32 },
    { op := .resamplePcm16, pattern := 0x80000000#32, mask := 0xFFFFFFFF#32 } ]

/-- "A header matches a row when `(REQ & mask) == match`" (R48). -/
def rowMatches (req : Header) (row : OpRow) : Bool := req &&& row.mask == row.pattern

/-- Step 1 of R49: the row a header matches. -/
def findOp (req : Header) : Option Op := (opTable.find? (rowMatches req)).map (·.op)

/-- The four per-sample operations use no `LEN` and no `DATA` (R52). -/
def Op.perSample : Op → Bool
  | .encodeAlaw => true
  | .decodeAlaw => true
  | .encodeUlaw => true
  | .decodeUlaw => true
  | .pcmToAlaw => false
  | .alawToPcm => false
  | .pcmToUlaw => false
  | .ulawToPcm => false
  | .resamplePcm16 => false

/-- Step 2 of R49: every field beside the header that the operation does not use is zero or empty (R52). -/
def unusedFieldsZero (op : Op) (r : Request) : Bool :=
  (op == .resamplePcm16 || (r.inRate == 0 && r.outRate == 0)) &&
  (!op.perSample || (r.len == 0 && r.data.isEmpty))

/-- Step 3 of R49: `LEN = len(DATA)` and `LEN <= LEN_MAX` (R53). -/
def lengthInRange (lenMax : Option Nat) (r : Request) : Bool :=
  r.len == r.data.length && withinLenMax lenMax r.len

/-- Operand assembly (R45): the sample is `A`, the code is `A[7:0]`. -/
def assemble (op : Op) (r : Request) : Instr :=
  match op with
  | .encodeAlaw => .encodeAlaw (headerA r.req)
  | .decodeAlaw => .decodeAlaw (r.req.extractLsb' 0 8)
  | .encodeUlaw => .encodeUlaw (headerA r.req)
  | .decodeUlaw => .decodeUlaw (r.req.extractLsb' 0 8)
  | .pcmToAlaw => .pcmToAlaw r.data
  | .alawToPcm => .alawToPcm r.data
  | .pcmToUlaw => .pcmToUlaw r.data
  | .ulawToPcm => .ulawToPcm r.data
  | .resamplePcm16 => .resamplePcm16 r.inRate r.outRate r.data

/-- Decoding a request, steps 1 to 3 of R49 in their order. -/
def decode (lenMax : Option Nat) (r : Request) : Except Reject Instr :=
  match findOp r.req with
  | none => if 9 ≤ (headerOp r.req).toNat then .error .reservedOpcode else .error .reservedBits
  | some op =>
    if !unusedFieldsZero op r then .error .reservedBits
    else if !lengthInRange lenMax r then .error .lengthOutOfRange
    else .ok (assemble op r)

/-- The header word `REQ = OP << 28 | A` (R44, R55), its reserved field zero (R51). -/
def headerOf (op : BitVec 4) (a : Word) : Header := op ++ (0#12 ++ a)

/-- A request with a header and nothing beside it (R52). -/
def headerRequest (req : Header) : Request :=
  { req := req, inRate := 0, outRate := 0, len := 0, data := [] }

/-- A request of a buffer operation: `A = 0`, `LEN` the number of bytes of `DATA` (R52, R53). -/
def bufferRequest (op : BitVec 4) (inRate outRate : Rate) (data : List Byte) : Request :=
  { req := headerOf op 0, inRate := inRate, outRate := outRate, len := data.length, data := data }

/-- The request that asks for an instruction (R44, R45, R48). -/
def encode : Instr → Request
  | .encodeAlaw sample => headerRequest (headerOf 0x0 sample)
  | .decodeAlaw code => headerRequest (headerOf 0x1 (0#8 ++ code))
  | .encodeUlaw sample => headerRequest (headerOf 0x2 sample)
  | .decodeUlaw code => headerRequest (headerOf 0x3 (0#8 ++ code))
  | .pcmToAlaw data => bufferRequest 0x4 0 0 data
  | .alawToPcm data => bufferRequest 0x5 0 0 data
  | .pcmToUlaw data => bufferRequest 0x6 0 0 data
  | .ulawToPcm data => bufferRequest 0x7 0 0 data
  | .resamplePcm16 inRate outRate data => bufferRequest 0x8 inRate outRate data

/-- The request of an opcode-table row: its bits are the header `REQ` (an abstract integer without a byte
order, 20_memory.md R25), and every field beside the header, which the table gives no bits, is zero or empty
(DESIGN CHOICE, notes/assumptions/15.md). -/
def tableRequest (nbits w : Nat) : Request := headerRequest (BitVec.ofNat 32 (w % 2 ^ nbits))

/-- The instruction the decoder reads from an opcode-table word. The fields beside the header are zero, so
`LEN_MAX` decides nothing here. -/
def decodeTableWord (nbits w : Nat) : Option Instr :=
  match decode none (tableRequest nbits w) with
  | .ok i => some i
  | .error _ => none

end Sys2Proof
end

