-- ==== Sys2Proof/Machine/Flags.lean ====
section
/-! DEFINITION. The block has no flags, no condition codes and no predicates (10_state.md rule R18). Its one
status field is `STATUS` of a response (rule R17); its two legal values stand here. -/

namespace Sys2Proof.Machine

/-- `STATUS` = `OK` (R17). -/
def statusOk : Byte := 0x00

/-- `STATUS` = `InvalidBufferLength` (R17). -/
def statusInvalidBufferLength : Byte := 0x01

end Sys2Proof.Machine
end

