-- ==== Sys2Proof/Machine/Operands.lean ====
section
/-! DEFINITION. The conversions of 00_scope.md section 5.2 between patterns and integers, which every operand and
every result goes through (30_encoding.md rules R45 and R46). -/

namespace Sys2Proof.Machine

/-- `sext_16` (00_scope.md 5.2): the `i16` of a `u16`. -/
def sext16 (u : Nat) : Int := if u < 32768 then (u : Int) else (u : Int) - 65536

/-- `tc16` (00_scope.md 5.2): the two's-complement pattern of an `i16`. -/
def tc16 (s : Int) : Word := BitVec.ofInt 16 s

/-- `zext_16` of a code (00_scope.md 5.2, 30_encoding.md R46). -/
def zext16 (code : Byte) : Word := code.setWidth 16

/-- The sample operand of the encoders: `sext_16(A)` (R45). -/
def sampleOperand (a : Word) : Int := sext16 a.toNat

end Sys2Proof.Machine
end

