-- ==== Sys2Proof/Machine/Memory.lean ====
section
/-! DEFINITION. The two byte-addressed spaces of one request and their access primitives (20_memory.md rules
R20 to R25). `IN` is the request's `DATA`, read only. `OUT` is write only; while an operation builds it, it is a
list of (offset, byte) cells in one canonical form, and an unlisted offset holds no value yet (DESIGN CHOICE,
notes/assumptions/10.md). Byte order is decided here and nowhere else: little-endian (R25). -/

namespace Sys2Proof.Machine

/-- The space `OUT` while it is being written. -/
abbrev Memory := List Host.Cell

/-- The canonical form: offsets strictly rising. An unlisted offset has no value, so no cell can repeat one. -/
abbrev Memory.wf (m : Memory) : Prop := m.Pairwise (fun x y => x.1 < y.1)

/-- The byte at an offset, `none` where nothing has been written. -/
def Memory.read (m : Memory) (a : Nat) : Option Byte :=
  match m with
  | [] => none
  | (x, y) :: rest => if x = a then some y else Memory.read rest a

/-- Write one byte, keeping the canonical form. -/
def Memory.write (m : Memory) (a : Nat) (b : Byte) : Memory :=
  match m with
  | [] => [(a, b)]
  | (x, y) :: rest =>
    if a < x then (a, b) :: (x, y) :: rest
    else if a = x then (a, b) :: rest
    else (x, y) :: Memory.write rest a b

/-- Write the low `n` bytes of `v`, least significant byte at the lowest offset (00_scope.md R7, R23). -/
def Memory.writeLE (m : Memory) (a n v : Nat) : Memory :=
  match n with
  | 0 => m
  | n + 1 => Memory.writeLE (Memory.write m a (BitVec.ofNat 8 v)) (a + 1) n (v / 256)

/-- The bytes of the space in rising order of offset. -/
def Memory.bytes (m : Memory) : List Byte := m.map (·.2)

/-- `n` bytes of a buffer from an offset as an unsigned little-endian number (R22), `none` outside it. -/
def readLE (data : List Byte) (a n : Nat) : Option Nat :=
  match n with
  | 0 => some 0
  | n + 1 =>
    match data[a]?, readLE data (a + 1) n with
    | some b, some v => some (b.toNat + 256 * v)
    | _, _ => none

/-- `MemRead(IN, addr, n)` (R22). Outside `IN` it faults, as R22 lets a model do
(DESIGN CHOICE, notes/assumptions/9.md). -/
def memRead (data : List Byte) (addr n : Nat) : Except Fault Nat :=
  match readLE data addr n with
  | some v => .ok v
  | none => .error .readOutside

/-- `MemWrite(OUT, addr, n, v)` into an `OUT` of `olen` bytes (R23). Outside `OUT` it faults. -/
def memWrite (olen : Nat) (out : Memory) (addr n v : Nat) : Except Fault Memory :=
  if addr + n ≤ olen then .ok (Memory.writeLE out addr n v) else .error .writeOutside

/-- Sample `k` of a linear PCM buffer: `sext_16(MemRead(IN, 2k, 2))` (R24). -/
def sampleAt (data : List Byte) (k : Nat) : Except Fault Int :=
  match memRead data (2 * k) 2 with
  | .ok u => .ok (sext16 u)
  | .error f => .error f

/-- `for k in 0..count-1` over the space `OUT`, stopping at the first fault (00_scope.md R7). -/
def forRange (count k : Nat) (body : Nat → Memory → Except Fault Memory) (out : Memory) : Except Fault Memory :=
  match count with
  | 0 => .ok out
  | count + 1 =>
    match body k out with
    | .ok out' => forRange count (k + 1) body out'
    | .error f => .error f

end Sys2Proof.Machine
end

