-- ==== Sys2Proof/Machine/Ops.lean ====
section
/-! DEFINITION. The named operations of the machine: giving a response, the error response, what the host may do
(60_exceptions.md rule R115), and taking the next request. -/

namespace Sys2Proof.Machine

/-- The outcome of one step of this machine. The refused and the fault mark of 60_exceptions.md R104 and R105 are the
two outcomes without a next state (DESIGN CHOICE, notes/assumptions/6.md). -/
abbrev Outcome := Host.Outcome State Fault Refusal

/-- Give the response of the request being served: it is written once, and the block is idle again
(10_state.md R14, R16, 70_reset_and_hazards.md R124). -/
def State.give (s : State) (resp : Response) : State :=
  { s with busy := .idle, responses := s.responses ++ [resp] }

/-- The response of a per-sample operation (30_encoding.md R46): `STATUS = OK`, `R`, no output buffer. -/
def scalarResponse (r : Word) : Response :=
  { status := statusOk, r := r, olen := 0, odata := [] }

/-- The response of a buffer operation (10_state.md R16): `STATUS = OK`, `R = 0`, the output buffer. -/
def bufferResponse (olen : Nat) (odata : List Byte) : Response :=
  { status := statusOk, r := 0, olen := olen, odata := odata }

/-- The error response (60_exceptions.md R101): `R = 0`, `OLEN = 0`, no output. -/
def errorResponse : Response :=
  { status := statusInvalidBufferLength, r := 0, olen := 0, odata := [] }

/-- `return v` of a per-sample operation (00_scope.md R7). -/
def returnScalar (r : Word) (s : State) : Outcome := .next (s.give (scalarResponse r))

/-- `STATUS = OK` of a buffer operation. -/
def returnBuffer (olen : Nat) (odata : List Byte) (s : State) : Outcome :=
  .next (s.give (bufferResponse olen odata))

/-- `raise InvalidBufferLength` (R101): the block's one architectural error. It is an ordinary response: no state
is saved, no mode is changed, nothing is jumped to (R108), and so there is no return from it (R109). -/
def raiseInvalidBufferLength (s : State) : Outcome := .next (s.give errorResponse)

/-- The response whose `ODATA` is the space `OUT` an operation has built, or the fault that ended it. -/
def returnOut (olen : Nat) (out : Except Fault Memory) (s : State) : Outcome :=
  match out with
  | .ok m => returnBuffer olen m.bytes s
  | .error f => .fault f

/-- The refusal reason of a request that decoding rejects (R100). -/
def refusalOf : Reject → Refusal
  | .reservedOpcode => .reservedOpcode
  | .reservedBits => .reservedBits
  | .lengthOutOfRange => .lengthOutOfRange

/-- The host issues a request (R115). A busy block takes none: the host table gives that no move (R124, U14). -/
def State.issue (s : State) (r : Request) : Option State :=
  match s.busy with
  | .idle => some { s with busy := .serving r }
  | .serving _ => none

/-- Reset of a running machine (70_reset_and_hazards.md R120, R121): the block is idle and the request in flight
is dropped without a response. The parameters, the responses already given and the host's program stay (DEDUCED,
notes/assumptions/18.md). -/
def State.resetBlock (s : State) : State := { s with busy := .idle }

/-- Take a request to serve: the one in flight, else the next of the host's program (R124: one atomic step per
request). `none` when the block is idle and the host issues nothing. -/
def fetch (s : State) : Option (Request × State) :=
  match s.busy, s.program with
  | .serving r, _ => some (r, s)
  | .idle, [] => none
  | .idle, r :: rest => some (r, { s with busy := .serving r, program := rest })

end Sys2Proof.Machine
end

