-- ==== Sys2Proof/Machine/CodecSample.lean ====
section
/-! DEFINITION. The four per-sample companding operations and their segment search (40_codec_sample.md rules R60
to R64). Arithmetic is on unbounded integers (00_scope.md R5); the bit operators act on natural numbers (R6). -/

namespace Sys2Proof.Machine

/-- `segment_index(m)` (R60): the least index whose threshold is not below `m`, 8 when there is none. -/
def segmentIndex (m : Int) : Nat := segEnd.findIdx (fun t => decide (m ≤ (t : Int)))

/-- The last steps of `encode_alaw` (R61), from the magnitude and the sign mask. The clamp arm is kept as written,
though no 16-bit sample reaches it (U12; notes/assumptions/16.md). -/
def alawCode (m mask : Nat) : Byte :=
  let g := segmentIndex m
  if 8 ≤ g then BitVec.ofNat 8 (clamp ^^^ mask)
  else
    let q := if g < 2 then (m >>> 4) &&& quantMask else (m >>> (g + 3)) &&& quantMask
    BitVec.ofNat 8 (((g <<< segShift) ||| q) ^^^ mask)

/-- `encode_alaw` (R61). -/
def encodeAlaw (sample : Int) : Byte :=
  if 0 ≤ sample then alawCode sample.toNat aMaskPos
  else if sample < -(aNegOffset : Int) then alawCode (-sample - aNegOffset).toNat aMaskNeg
  else BitVec.ofNat 8 aMaskPos

/-- `decode_alaw` (R62), with the parameter `ALAW_DEC_NEG`. -/
def decodeAlaw (neg : AlawDecNeg) (code : Byte) : Int :=
  let v := code.toNat ^^^ aMaskNeg
  let ms := (v &&& quantMask) <<< 4
  let g := (v &&& segMask) >>> segShift
  let t := if g = 0 then ms + aDecAdd0
    else if g = 1 then ms + aDecAdd1
    else (ms + aDecAdd1) <<< (g - 1)
  if v &&& signBit ≠ 0 then (t : Int)
  else match neg with
    | .zero => 0
    | .negate => -(t : Int)

/-- The last steps of `encode_ulaw` (R63), from the biased magnitude and the sign mask. -/
def ulawCode (m mask : Nat) : Byte :=
  let g := segmentIndex m
  if 8 ≤ g then BitVec.ofNat 8 (clamp ^^^ mask)
  else BitVec.ofNat 8 (((g <<< segShift) ||| ((m >>> (g + 3)) &&& quantMask)) ^^^ mask)

/-- `encode_ulaw` (R63). -/
def encodeUlaw (sample : Int) : Byte :=
  if sample < 0 then ulawCode ((bias : Int) - sample).toNat uMaskNeg
  else ulawCode (sample + bias).toNat uMaskPos

/-- `decode_ulaw` (R64). -/
def decodeUlaw (code : Byte) : Int :=
  let v := code.toNat ^^^ 0xFF
  let g := (v &&& segMask) >>> segShift
  let t := (((v &&& quantMask) <<< 3) + bias) <<< g
  if v &&& signBit ≠ 0 then (bias : Int) - t else (t : Int) - bias

/-- `encode_alaw` as an operation (R61): `R` is the zero-extended code. -/
def execEncodeAlaw (sample : Word) (s : State) : Outcome :=
  returnScalar (zext16 (encodeAlaw (sampleOperand sample))) s

/-- `decode_alaw` as an operation (R62): `R` is the sample's pattern. -/
def execDecodeAlaw (code : Byte) (s : State) : Outcome :=
  returnScalar (tc16 (decodeAlaw s.params.alawDecNeg code)) s

/-- `encode_ulaw` as an operation (R63). -/
def execEncodeUlaw (sample : Word) (s : State) : Outcome :=
  returnScalar (zext16 (encodeUlaw (sampleOperand sample))) s

/-- `decode_ulaw` as an operation (R64). -/
def execDecodeUlaw (code : Byte) (s : State) : Outcome :=
  returnScalar (tc16 (decodeUlaw code)) s

end Sys2Proof.Machine
end

