-- ==== Sys2Proof/Machine/CodecBuffer.lean ====
section
/-! DEFINITION. The four buffer companding operations (41_codec_buffer.md rules R70 to R74), each a loop of
`MemRead`, the per-sample function and `MemWrite`. -/

namespace Sys2Proof.Machine

/-- One turn of a PCM-consuming loop (R71, R73): sample `k` in, one code out at offset `k`. -/
def compressStep (f : Int → Byte) (data : List Byte) (olen k : Nat) (out : Memory) : Except Fault Memory :=
  match sampleAt data k with
  | .ok x => memWrite olen out k 1 (f x).toNat
  | .error e => .error e

/-- A PCM-consuming operation (R71, R73): the length check before any access (R70), then the loop. -/
def compressBuffer (f : Int → Byte) (data : List Byte) (s : State) : Outcome :=
  if data.length % 2 ≠ 0 then raiseInvalidBufferLength s
  else
    let n := data.length / 2
    returnOut n (forRange n 0 (compressStep f data n) []) s

/-- One turn of a code-consuming loop (R72, R74): code `k` in, one sample out at offset `2k`. -/
def expandStep (f : Byte → Int) (data : List Byte) (olen k : Nat) (out : Memory) : Except Fault Memory :=
  match memRead data k 1 with
  | .ok c => memWrite olen out (2 * k) 2 (tc16 (f (BitVec.ofNat 8 c))).toNat
  | .error e => .error e

/-- A code-consuming operation (R72, R74): refused when its output would exceed `LEN_MAX` (30_encoding.md R53;
DEDUCED, notes/assumptions/12.md), else the loop. -/
def expandBuffer (f : Byte → Int) (data : List Byte) (s : State) : Outcome :=
  let olen := 2 * data.length
  if !withinLenMax s.params.lenMax olen then .refused .lengthOutOfRange
  else returnOut olen (forRange data.length 0 (expandStep f data olen) []) s

/-- `pcm_to_alaw` (R71). -/
def execPcmToAlaw (data : List Byte) (s : State) : Outcome := compressBuffer encodeAlaw data s

/-- `alaw_to_pcm` (R72). -/
def execAlawToPcm (data : List Byte) (s : State) : Outcome := expandBuffer (decodeAlaw s.params.alawDecNeg) data s

/-- `pcm_to_ulaw` (R73). -/
def execPcmToUlaw (data : List Byte) (s : State) : Outcome := compressBuffer encodeUlaw data s

/-- `ulaw_to_pcm` (R74). -/
def execUlawToPcm (data : List Byte) (s : State) : Outcome := expandBuffer decodeUlaw data s

end Sys2Proof.Machine
end

