-- ==== Sys2Proof/Machine/Arith.lean ====
section
/-! DEFINITION. The arithmetic `NUM` of the resampler as the configuration record of 42_resampler.md rule R82, and
its two named values: IEEE 754 binary64 (R82, R83) and exact rationals (R93); the two tie rules of `fround` (R84). -/

namespace Sys2Proof.Machine

/-- The configuration record `NUM` of R82. Nothing is assumed of it but that each function depends on its
operands alone. -/
structure Arith where
  F : Type
  ofInt : Int → F
  fadd : F → F → F
  fsub : F → F → F
  fmul : F → F → F
  fdiv : F → F → F
  ffloor : F → Int
  fround : F → Int

/-- The integer nearest `x`, a value half-way between two going to the one farther from zero (R84, `TIES_AWAY`). -/
def roundTiesAway (x : Rat) : Int :=
  let i := x.floor
  let d := x - i
  if d < 1 / 2 then i
  else if 1 / 2 < d then i + 1
  else if 0 ≤ x then i + 1 else i

/-- The integer nearest `x`, a value half-way between two going to the even one (R84, `TIES_EVEN`). -/
def roundTiesEven (x : Rat) : Int :=
  let i := x.floor
  let d := x - i
  if d < 1 / 2 then i
  else if 1 / 2 < d then i + 1
  else if i % 2 = 0 then i else i + 1

/-- `fround` under a tie rule (R84). -/
def roundBy (rule : TieRule) (x : Rat) : Int :=
  match rule with
  | .tiesAway => roundTiesAway x
  | .tiesEven => roundTiesEven x

/-- A power of two with any integer exponent. -/
def pow2 (e : Int) : Rat :=
  match e with
  | .ofNat n => ((2 ^ n : Nat) : Rat)
  | .negSucc n => mkRat 1 (2 ^ (n + 1))

/-- The exponent of a non-zero value: the greatest `e` with `2^e <= |q|`. -/
def exponentOf (q : Rat) : Int :=
  let e : Int := (q.num.natAbs.log2 : Int) - (q.den.log2 : Int)
  if pow2 e ≤ |q| then e else e - 1

/-- The spacing of binary64 values around a non-zero `q`: 52 fraction bits below the leading one, and the smallest
normal exponent -1022 (R82, G5). -/
def binary64Ulp (q : Rat) : Rat := pow2 (max (exponentOf q) (-1022) - 52)

/-- The binary64 value nearest `q`, ties to the even significand (R82). The values are the rationals they stand
for; the exponent has no upper limit here, which no rule of 42_resampler.md can tell (R82; DEDUCED,
notes/assumptions/7.md). -/
def binary64Round (q : Rat) : Rat :=
  if q = 0 then 0 else (roundTiesEven (q / binary64Ulp q) : Rat) * binary64Ulp q

/-- An arithmetic on rationals that rounds every result once with `rnd` and fuses nothing (R82). Converting an
integer rounds too: it is exact up to 2^53 (R83; above it DESIGN CHOICE, notes/assumptions/8.md). -/
def roundedArith (rnd : Rat → Rat) (rule : TieRule) : Arith :=
  { F := Rat
    ofInt := fun i => rnd i
    fadd := fun x y => rnd (x + y)
    fsub := fun x y => rnd (x - y)
    fmul := fun x y => rnd (x * y)
    fdiv := fun x y => rnd (x / y)
    ffloor := fun x => x.floor
    fround := roundBy rule }

/-- The arithmetic a parameter setting names: `binary64` (R82) or `EXACT`, which rounds nothing (R93). -/
def arithOf (num : Num) (rule : TieRule) : Arith :=
  match num with
  | .binary64 => roundedArith binary64Round rule
  | .exact => roundedArith (fun q => q) rule

end Sys2Proof.Machine
end

