-- ==== Sys2Proof/Machine/Resampler.lean ====
section
/-! DEFINITION. The linear-interpolation resampler (42_resampler.md rules R80 to R94), written over any arithmetic
record of rule R82. It keeps no state from one request to the next (R80), and has no filter (R94). -/

namespace Sys2Proof.Machine

/-- `ratio` (R87): one rounding. -/
def resampleRatio (A : Arith) (inRate outRate : Rate) : A.F :=
  A.fdiv (A.ofInt outRate.toNat) (A.ofInt inRate.toNat)

/-- `m`, the number of output samples (R87). R83 defines `ffloor` from 0 up, and no rule gives `OLEN` for a negative
`m`, which no arithmetic of R4 gives: another record's negative `m` counts as 0 (DESIGN CHOICE,
notes/assumptions/23.md). -/
def outputCount (A : Arith) (n : Nat) (ratio : A.F) : Nat :=
  (A.ffloor (A.fmul (A.ofInt n) ratio)).toNat

/-- The interpolated value `y` between two neighbours (R88): two products, their sum, then `fround`. -/
def interpolate (A : Arith) (x0 x1 : Int) (frac : A.F) : Int :=
  let w0 := A.fsub (A.ofInt 1) frac
  A.fround (A.fadd (A.fmul (A.ofInt x0) w0) (A.fmul (A.ofInt x1) frac))

/-- Narrowing to a sample (R88, R90): outside `i16` it faults. -/
def narrow (y : Int) : Except Fault Int :=
  if y < -32768 ∨ 32767 < y then .error .narrowOverflow else .ok y

/-- Output sample `k` (R88): position, index, fraction; then interpolation, or the tail copy (R89). An index
below 0 is no offset of `IN` either, and is the same fault (no arithmetic of R4 gives one; DESIGN CHOICE,
notes/assumptions/9.md). -/
def resampleSample (A : Arith) (data : List Byte) (n : Nat) (ratio : A.F) (k : Nat) : Except Fault Int :=
  let p := A.fdiv (A.ofInt k) ratio
  let index := A.ffloor p
  let frac := A.fsub p (A.ofInt index)
  if index < 0 ∨ (n : Int) ≤ index then .error .indexOutOfRange
  else if index + 1 ≤ (n : Int) - 1 then
    match sampleAt data index.toNat, sampleAt data (index.toNat + 1) with
    | .ok x0, .ok x1 => narrow (interpolate A x0 x1 frac)
    | .error e, _ => .error e
    | _, .error e => .error e
  else sampleAt data index.toNat

/-- One turn of the output loop (R88): sample `k` written at offset `2k`. -/
def resampleStep (A : Arith) (data : List Byte) (n : Nat) (ratio : A.F) (olen k : Nat) (out : Memory) :
    Except Fault Memory :=
  match resampleSample A data n ratio k with
  | .ok y => memWrite olen out (2 * k) 2 (tc16 y).toNat
  | .error e => .error e

/-- Steps 4 and 5 of R81 under an arithmetic: the output bound, then the loop. -/
def resampleWith (A : Arith) (inRate outRate : Rate) (data : List Byte) (s : State) : Outcome :=
  let n := data.length / 2
  let ratio := resampleRatio A inRate outRate
  let m := outputCount A n ratio
  if !withinLenMax s.params.lenMax (2 * m) then .refused .lengthOutOfRange
  else returnOut (2 * m) (forRange m 0 (resampleStep A data n ratio (2 * m)) []) s

/-- `resample_pcm16` (R80), its checks in the order of R81: odd length, equal rates (the identity, R91(b)), a zero
input rate (R86(b)), then the computation, which a zero output rate takes too (R86(c); DESIGN CHOICE,
notes/assumptions/11.md). -/
def execResamplePcm16 (inRate outRate : Rate) (data : List Byte) (s : State) : Outcome :=
  if data.length % 2 ≠ 0 then raiseInvalidBufferLength s
  else if inRate = outRate then returnBuffer data.length data s
  else if inRate = 0 then .refused .reservedRate
  else resampleWith (arithOf s.params.num s.params.round) inRate outRate data s

end Sys2Proof.Machine
end

