-- ==== Sys2Proof/Machine/Dispatch.lean ====
section
/-! DEFINITION. One arm per operation of 30_encoding.md rule R48, each one direct call of its meaning. -/

namespace Sys2Proof.Machine

/-- What an instruction does to the state in which it is served. -/
def exec (i : Instr) (s : State) : Host.Outcome State Fault Refusal :=
  match i with
  | .encodeAlaw sample => Sys2Proof.Machine.execEncodeAlaw sample s
  | .decodeAlaw code => Sys2Proof.Machine.execDecodeAlaw code s
  | .encodeUlaw sample => Sys2Proof.Machine.execEncodeUlaw sample s
  | .decodeUlaw code => Sys2Proof.Machine.execDecodeUlaw code s
  | .pcmToAlaw data => Sys2Proof.Machine.execPcmToAlaw data s
  | .alawToPcm data => Sys2Proof.Machine.execAlawToPcm data s
  | .pcmToUlaw data => Sys2Proof.Machine.execPcmToUlaw data s
  | .ulawToPcm data => Sys2Proof.Machine.execUlawToPcm data s
  | .resamplePcm16 inRate outRate data => Sys2Proof.Machine.execResamplePcm16 inRate outRate data s

end Sys2Proof.Machine
end

