-- ==== Sys2Proof/Machine/Step.lean ====
section
/-! DEFINITION. One step (70_reset_and_hazards.md rule R124): `idle, request -> idle, response`, one request per
step; and the placing of a request where the next step takes it. -/

namespace Sys2Proof.Machine

/-- One step of the machine: take a request, decode it (30_encoding.md R49), run its operation. An idle block to
which the host issues nothing stays as it is (DESIGN CHOICE, notes/assumptions/3.md). -/
def step (s : State) : Host.Outcome State Fault Refusal :=
  match fetch s with
  | none => .next s
  | some (r, s') =>
    match decode s'.params.lenMax r with
    | .error e => .refused (refusalOf e)
    | .ok i => exec i s'

/-- The state with the request of an opcode-table word in flight, which the next step serves: it stands for the
host's issue of that request (DESIGN CHOICE, notes/assumptions/5.md). -/
def State.withFetchWord (s : State) (nbits w : Nat) : State :=
  { s with busy := .serving (tableRequest nbits w) }

end Sys2Proof.Machine
end

