-- ==== Sys2Proof/Machine/Assembler.lean ====
section
/-! DEFINITION. The host's textual form of a request (30_encoding.md rules R55 and R56): one request a line, the
mnemonics of rule R48, the alias `resample`, the operand `$OUT`, and the expected response after an arrow. The
block never sees any of it. What R55 leaves open is settled by notes/assumptions/19.md (DESIGN CHOICE). A line is a
list of characters; braces are written by their code points. -/

namespace Sys2Proof.Machine

/-- A buffer operand (R55, R56): bytes, or the previous response's `ODATA`. -/
inductive BufferOperand where
  | bytes (data : List Byte)
  | previousOut
  deriving DecidableEq, Repr

/-- The response a line expects (R55). -/
inductive Expected where
  | scalar (r : Word)
  | ok (odata : List Byte)
  | invalidBufferLength
  deriving DecidableEq, Repr

/-- A parsed line: the operation, its scalar operand, its rates, its buffer, and what the line expects. -/
structure Line where
  op : Op
  a : Word
  inRate : Rate
  outRate : Rate
  buffer : BufferOperand
  expected : Option Expected
  deriving DecidableEq, Repr

/-- The opcode of an operation (R48). -/
def opNumber : Op → BitVec 4
  | .encodeAlaw => 0x0
  | .decodeAlaw => 0x1
  | .encodeUlaw => 0x2
  | .decodeUlaw => 0x3
  | .pcmToAlaw => 0x4
  | .alawToPcm => 0x5
  | .pcmToUlaw => 0x6
  | .ulawToPcm => 0x7
  | .resamplePcm16 => 0x8

/-- The mnemonics (R48) and the alias `resample` (R56). -/
def mnemonicTable : List (List Char × Op) :=
  [ ("encode_alaw".toList, .encodeAlaw), ("decode_alaw".toList, .decodeAlaw),
    ("encode_ulaw".toList, .encodeUlaw), ("decode_ulaw".toList, .decodeUlaw),
    ("pcm_to_alaw".toList, .pcmToAlaw), ("alaw_to_pcm".toList, .alawToPcm),
    ("pcm_to_ulaw".toList, .pcmToUlaw), ("ulaw_to_pcm".toList, .ulawToPcm),
    ("resample_pcm16".toList, .resamplePcm16), ("resample".toList, .resamplePcm16) ]

/-- The opening and the closing brace of a byte sequence. -/
def openBrace : Char := Char.ofNat 123

/-- The closing brace of a byte sequence. -/
def closeBrace : Char := Char.ofNat 125

/-- The word read so far, if there is one. -/
def flushToken (cur : List Char) : List (List Char) := if cur = [] then [] else [cur]

/-- The tokens of a line: words between blanks, commas and braces by themselves, nothing after a semicolon. -/
def tokens (line cur : List Char) : List (List Char) :=
  match line with
  | [] => flushToken cur
  | c :: rest =>
    if c = ';' then flushToken cur
    else if c = ' ' ∨ c = '\t' then flushToken cur ++ tokens rest []
    else if c = ',' ∨ c = openBrace ∨ c = closeBrace then flushToken cur ++ [c] :: tokens rest []
    else tokens rest (cur ++ [c])

/-- A hexadecimal digit, either case. -/
def hexDigit (c : Char) : Option Nat :=
  if '0' ≤ c ∧ c ≤ '9' then some (c.toNat - 48)
  else if 'a' ≤ c ∧ c ≤ 'f' then some (c.toNat - 87)
  else if 'A' ≤ c ∧ c ≤ 'F' then some (c.toNat - 55)
  else none

/-- The number a string of digits stands for, after the digits already read. -/
def digitsFrom (base acc : Nat) (ds : List Char) : Option Nat :=
  match ds with
  | [] => some acc
  | c :: rest =>
    match hexDigit c with
    | some d => if d < base then digitsFrom base (base * acc + d) rest else none
    | none => none

/-- A non-empty string of decimal digits. -/
def decimal (ds : List Char) : Option Nat := if ds = [] then none else digitsFrom 10 0 ds

/-- `0x` and a fixed number of hexadecimal digits. -/
def hexWord (digits : Nat) (tok : List Char) : Option Nat :=
  match tok with
  | '0' :: 'x' :: ds => if ds.length = digits then digitsFrom 16 0 ds else none
  | _ => none

/-- `<sample>` (R55): a decimal integer from -32768 to 32767, or a 16-bit pattern. -/
def parseSample (tok : List Char) : Option Word :=
  match hexWord 4 tok with
  | some v => some (BitVec.ofNat 16 v)
  | none =>
    match tok with
    | '-' :: ds =>
      match decimal ds with
      | some v => if v ≤ 32768 then some (BitVec.ofInt 16 (-(v : Int))) else none
      | none => none
    | ds =>
      match decimal ds with
      | some v => if v ≤ 32767 then some (BitVec.ofNat 16 v) else none
      | none => none

/-- `<code>` (R55): an integer from 0 to 255, decimal or hexadecimal; the field `A` holds it zero-extended. -/
def parseCode (tok : List Char) : Option Word :=
  match hexWord 2 tok with
  | some v => some (BitVec.ofNat 16 v)
  | none =>
    match decimal tok with
    | some v => if v ≤ 255 then some (BitVec.ofNat 16 v) else none
    | none => none

/-- A rate (R55): a decimal integer from 0 to 2^32 - 1. -/
def parseRate (tok : List Char) : Option Rate :=
  match decimal tok with
  | some v => if v < 2 ^ 32 then some (BitVec.ofNat 32 v) else none
  | none => none

/-- The bytes of a sequence, each two hexadecimal digits, up to the closing brace, which ends the operand. -/
def parseBytes (toks : List (List Char)) : Option (List Byte) :=
  match toks with
  | [] => none
  | tok :: rest =>
    if tok = [closeBrace] then (if rest = [] then some [] else none)
    else if tok.length = 2 then
      match digitsFrom 16 0 tok, parseBytes rest with
      | some v, some bs => some (BitVec.ofNat 8 v :: bs)
      | _, _ => none
    else none

/-- A buffer operand: a byte sequence in braces, or `$OUT` (R56). -/
def parseBuffer (toks : List (List Char)) : Option BufferOperand :=
  match toks with
  | [] => none
  | tok :: rest =>
    if tok = [openBrace] then (parseBytes rest).map .bytes
    else if tok = "$OUT".toList ∧ rest = [] then some .previousOut
    else none

/-- The expected response after the arrow (R55). -/
def parseExpected (toks : List (List Char)) : Option Expected :=
  match toks with
  | [] => none
  | tok :: rest =>
    if tok = "OK".toList then
      match parseBuffer rest with
      | some (.bytes bs) => some (.ok bs)
      | _ => none
    else if tok = "InvalidBufferLength".toList ∧ rest = [] then some .invalidBufferLength
    else match tok, rest with
      | 'R' :: '=' :: w, [] => (hexWord 4 w).map (fun v => .scalar (BitVec.ofNat 16 v))
      | _, _ => none

/-- The form of an expected response is the one R55 writes for the operation: `R=` for a per-sample operation, `OK`
or `InvalidBufferLength` for the others. -/
def Expected.fits (e : Expected) (op : Op) : Bool :=
  match e with
  | .scalar _ => op.perSample
  | .ok _ => !op.perSample
  | .invalidBufferLength => !op.perSample

/-- The operands of a line, for its operation (R55). -/
def parseOperands (op : Op) (toks : List (List Char)) (expected : Option Expected) : Option Line :=
  match op with
  | .encodeAlaw | .encodeUlaw =>
    match toks with
    | [tok] => (parseSample tok).map (fun a => ⟨op, a, 0, 0, .bytes [], expected⟩)
    | _ => none
  | .decodeAlaw | .decodeUlaw =>
    match toks with
    | [tok] => (parseCode tok).map (fun a => ⟨op, a, 0, 0, .bytes [], expected⟩)
    | _ => none
  | .pcmToAlaw | .alawToPcm | .pcmToUlaw | .ulawToPcm =>
    (parseBuffer toks).map (fun b => ⟨op, 0, 0, 0, b, expected⟩)
  | .resamplePcm16 =>
    match toks with
    | inTok :: comma₁ :: outTok :: comma₂ :: rest =>
      if comma₁ = [','] ∧ comma₂ = [','] then
        match parseRate inTok, parseRate outTok, parseBuffer rest with
        | some i, some o, some b => some ⟨op, 0, i, o, b, expected⟩
        | _, _, _ => none
      else none
    | _ => none

/-- A line of the assembler syntax (R55, R56). A line whose expected response has a form that R55 does not write for
its operation is no line, and is rejected (DESIGN CHOICE, notes/assumptions/19.md). -/
def parseLine (line : List Char) : Option Line :=
  let toks := tokens line []
  let left := toks.takeWhile (fun tok => !(tok == "->".toList))
  let right := (toks.dropWhile (fun tok => !(tok == "->".toList))).drop 1
  match left with
  | [] => none
  | name :: operands =>
    match mnemonicTable.lookup name with
    | none => none
    | some op =>
      if left = toks then parseOperands op operands none
      else match parseExpected right with
        | some e => if e.fits op then parseOperands op operands (some e) else none
        | none => none

/-- The request of a line (R55): `REQ = OP << 28 | A`, `LEN` the number of bytes written. The host puts the
previous response's `ODATA` in place of `$OUT` (R56); without a previous response there is none to put. -/
def Line.request (l : Line) (previous : Option Response) : Option Request :=
  let build (data : List Byte) : Request :=
    { req := headerOf (opNumber l.op) l.a, inRate := l.inRate, outRate := l.outRate, len := data.length, data := data }
  match l.buffer, previous with
  | .bytes data, _ => some (build data)
  | .previousOut, some resp => some (build resp.odata)
  | .previousOut, none => none

/-- A response is the one a line expects (R55). -/
def Expected.matches (e : Expected) (resp : Response) : Bool :=
  match e with
  | .scalar r => resp == scalarResponse r
  | .ok odata => resp == bufferResponse odata.length odata
  | .invalidBufferLength => resp == errorResponse

/-- The host runs a list of lines: each is issued after the response to the one before (70_reset_and_hazards.md
R124). `none` where the host has no move (a busy block, or `$OUT` without a response). -/
def runLines (lines : List Line) (s : State) : Option (Host.Outcome State Fault Refusal) :=
  match lines with
  | [] => some (.next s)
  | l :: rest =>
    match l.request s.responses.getLast? with
    | none => none
    | some r =>
      match s.issue r with
      | none => none
      | some s₁ =>
        match step s₁ with
        | .next t => runLines rest t
        | .fault f => some (.fault f)
        | .refused reason => some (.refused reason)

end Sys2Proof.Machine
end

