-- ==== Sys2Proof/Machine/Instances.lean ====
section
/-! DEFINITION. `N_INST` instances side by side (00_scope.md R4, 60_exceptions.md R114): each is a whole machine
state, they share nothing but the constants, and any of them may move next. -/

namespace Sys2Proof.Machine

/-- A system of `nInst` instances (`N_INST`, R4; DESIGN CHOICE, notes/assumptions/14.md). R4 does not say whether the
parameters are one set for all instances or one set for each: here each instance carries its own, and a system may mix
them; `System.oneSetting` says that it does not (DESIGN CHOICE, notes/assumptions/22.md). -/
abbrev System (nInst : Nat) := Vector State nInst

/-- All instances have the same parameters, under which 10_state.md R19 holds across instances: equal requests get
equal responses on whichever of them they run (notes/assumptions/22.md). -/
def System.oneSetting {nInst : Nat} (sys : System nInst) : Prop := ∀ i j : Fin nInst, sys[i].params = sys[j].params

/-- The system right after reset: every instance at its reset state (70_reset_and_hazards.md R120). -/
def systemReset (nInst : Nat) : System nInst := Vector.replicate nInst State.reset

/-- One step of instance `i` (R114): no other instance is read or written. The outcome is that instance's own;
a fault or a refusal of one instance stops that instance and no other. -/
def stepInstance (sys : System nInst) (i : Fin nInst) : Host.Outcome (System nInst) Fault Refusal :=
  match step sys[i] with
  | .next t => .next (sys.set i t)
  | .fault f => .fault f
  | .refused r => .refused r

end Sys2Proof.Machine
end

