-- ==== Sys2Proof/Safety.lean ====
section
/-! DEFINITION. What counts as a safe run, and the spec's own terms that the claims are written in: the launch
premises (70_reset_and_hazards.md R123), the legal responses (10_state.md R16, R17), the samples of a buffer
(20_memory.md R24), and the quantisation cells and reconstruction levels of the two laws (40_codec_sample.md). -/

namespace Sys2Proof.Machine

/-- The launch premise `idle` (R123(a)); (b) is that no step has faulted or been refused, and (c) holds of every
run, since no step changes `params`. -/
def State.launch (s : State) : Bool := s.busy == .idle

/-- The next step is no fault. -/
def State.stepSafe (s : State) : Prop := ∀ f, step s ≠ .fault f

/-- The state after `resp` has been given: idle again, everything else as it was (R124). -/
def served (s : State) (resp : Response) : State :=
  { params := s.params, busy := .idle, responses := s.responses ++ [resp], program := s.program }

/-- The state with a request in flight. -/
def serving (s : State) (r : Request) : State :=
  { params := s.params, busy := .serving r, responses := s.responses, program := s.program }

/-- A request as its six fields, the header in the three fields of 30_encoding.md R44. -/
def request (op : BitVec 4) (zero : BitVec 12) (a : Word) (inRate outRate : Rate) (len : Nat) (data : List Byte) :
    Request :=
  { req := op ++ (zero ++ a), inRate := inRate, outRate := outRate, len := len, data := data }

/-- A legal response (R16, R17): `OLEN` is the length of `ODATA` and within `LEN_MAX`; the status is `OK`, or
`InvalidBufferLength` with nothing beside it; `R` is used by the operations without an output buffer only. -/
def Response.legal (lenMax : Option Nat) (resp : Response) : Prop :=
  resp.olen = resp.odata.length ∧ withinLenMax lenMax resp.olen = true ∧
  (resp.status = 0x00 ∨ (resp.status = 0x01 ∧ resp.r = 0 ∧ resp.odata = [])) ∧
  (resp.r ≠ 0 → resp.odata = [])

/-- Every response given so far is legal. -/
def State.responsesLegal (s : State) : Prop := ∀ resp ∈ s.responses, resp.legal s.params.lenMax

/-- How many requests the machine has still to answer: the one in flight and those the host will issue. -/
def State.outstanding (s : State) : Nat :=
  match s.busy with
  | .idle => s.program.length
  | .serving _ => s.program.length + 1

/-- The operations that consume linear PCM (60_exceptions.md R101), with their input buffer. -/
def pcmInput : Instr → Option (List Byte)
  | .encodeAlaw _ => none
  | .decodeAlaw _ => none
  | .encodeUlaw _ => none
  | .decodeUlaw _ => none
  | .pcmToAlaw data => some data
  | .alawToPcm _ => none
  | .pcmToUlaw data => some data
  | .ulawToPcm _ => none
  | .resamplePcm16 _ _ data => some data

/-- Sample `k` of a linear PCM buffer as an integer: high byte, low byte, two's complement (R24, R40). Offsets
outside the buffer read as 0 here; the claims use offsets inside it. -/
def pcmSample (data : List Byte) (k : Nat) : Int :=
  (data.getD (2 * k + 1) 0 ++ data.getD (2 * k) 0 : BitVec 16).toInt

/-- The A-law quantisation cell `g, q` (R61, "Cells"). -/
def inAlawCell (g q : Nat) (m : Int) : Prop :=
  if g < 2 then 256 * g + 16 * q ≤ m ∧ m ≤ 256 * g + 16 * q + 15
  else (16 + q) * 2 ^ (g + 3) ≤ m ∧ m ≤ (17 + q) * 2 ^ (g + 3) - 1

/-- The µ-law quantisation cell `g, q` of a biased magnitude (R63, "Cells"). -/
def inUlawCell (g q : Nat) (m : Int) : Prop :=
  (16 + q) * 2 ^ (g + 3) ≤ m ∧ m ≤ (17 + q) * 2 ^ (g + 3) - 1

/-- The field `SEG` of an un-masked value (30_encoding.md R41). -/
def segField (v : Byte) : Nat := v.toNat / 16 % 8

/-- The field `Q` of an un-masked value (30_encoding.md R41). -/
def quantField (v : Byte) : Nat := v.toNat % 16

/-- The A-law reconstruction magnitude of a code (R62, corner case (d)). -/
def alawLevel (code : Byte) : Nat :=
  let g := segField (code ^^^ 0x55)
  let q := quantField (code ^^^ 0x55)
  if g = 0 then 16 * q + 8 else (16 * q + 264) * 2 ^ (g - 1)

/-- The µ-law reconstruction magnitude of a code (R64). -/
def ulawLevel (code : Byte) : Nat :=
  (8 * quantField (~~~code) + 132) * 2 ^ segField (~~~code) - 132

/-- `step_A` of the segment of an A-law code (R66). -/
def alawStepSize (code : Byte) : Int :=
  let g := segField (code ^^^ 0x55)
  if g < 2 then 16 else 2 ^ (g + 3)

/-- `step_U` of the segment of a µ-law code (R66). -/
def ulawStepSize (code : Byte) : Int := 2 ^ (segField (~~~code) + 3)

/-- The sample 16-bit patterns stand for (R40). -/
def sampleOf (v : Word) : Int := v.toInt

/-- `y` lies between `a` and `b`, ends included (R92(c)). -/
def between (a b y : Int) : Prop := min a b ≤ y ∧ y ≤ max a b

/-- A field that the operation `op` does not use is not zero or empty (30_encoding.md R52). -/
abbrev unusedFieldSet (op : BitVec 4) (a : Word) (inRate outRate : Rate) (len : Nat) (data : List Byte) : Prop :=
  ((op = 0x1 ∨ op = 0x3) ∧ 256 ≤ a.toNat) ∨
  (4 ≤ op.toNat ∧ a ≠ 0) ∨
  (op ≠ 0x8 ∧ (inRate ≠ 0 ∨ outRate ≠ 0)) ∨
  (op.toNat < 4 ∧ (len ≠ 0 ∨ data ≠ []))

/-- The output length that R53 bounds: `2 * LEN` for the code-consuming operations, `2 * m` for the resampler. -/
def boundedOutputLength (s : State) (op : BitVec 4) (inRate outRate : Rate) (data : List Byte) : Nat :=
  let A := arithOf s.params.num s.params.round
  if op = 0x5 ∨ op = 0x7 then 2 * data.length
  else if op = 0x8 then 2 * outputCount A (data.length / 2) (resampleRatio A inRate outRate)
  else 0

/-- What a request got: a response, a fault or a refusal, as an outcome of a step from `s`. -/
def respond (s : State) (o : Host.Outcome Response Fault Refusal) : Host.Outcome State Fault Refusal :=
  match o with
  | .next resp => .next (served s resp)
  | .fault f => .fault f
  | .refused reason => .refused reason

/-- A binary64 value whose exponent is not limited above: at most 53 significant bits, none below 2^-1074
(R82, G5). -/
def isBinary64 (q : Rat) : Prop := ∃ m e : Int, |m| < 2 ^ 53 ∧ -1074 ≤ e ∧ q = m * (2 : Rat) ^ e

end Sys2Proof.Machine
end

