-- ==== Sys2Proof/Certificates/Slice0/Obligations.lean ====
section
/-! DEFINITION. The statements for the provers, each a rule of the spec or a consequence that the spec derives.
A response is written out as its four fields: status, `R`, `OLEN`, `ODATA`. -/

open Sys2Proof Sys2Proof.Machine

/-- Every well-formed instruction is what its own request decodes to (30_encoding.md R44, R45, R48, R49, R53).
Well-formed is within the input bound; the output bound is left to the operation (notes/assumptions/12.md). -/
def Obligations.DecodeOfEncode : Prop :=
  ∀ (lenMax : Option Nat) (i : Instr), i.wellFormed lenMax = true → decode lenMax (encode i) = .ok i

/-- Two different requests never mean the same (R52): what decodes is the one request of its instruction,
which is within the input bound; the output bound is left to the operation (notes/assumptions/12.md). -/
def Obligations.EncodeOfDecode : Prop :=
  ∀ (lenMax : Option Nat) (r : Request) (i : Instr),
    decode lenMax r = .ok i → encode i = r ∧ i.wellFormed lenMax = true

/-- "The rows are disjoint: at most one matches" (R48). -/
def Obligations.OpcodeRowsDisjoint : Prop :=
  ∀ (req : Header) (row row' : OpRow), row ∈ opTable → row' ∈ opTable →
    rowMatches req row = true → rowMatches req row' = true → row = row'

/-- The worked encodings (R57, which the spec derives from R44, R48 and R55): each line is its request, and each request is its instruction or is refused. -/
def Obligations.WorkedEncodings : Prop :=
  let plain (req : Header) : Request := ⟨req, 0, 0, 0, []⟩
  let braced (line bytes : String) : List Char := line.toList ++ [openBrace] ++ bytes.toList ++ [closeBrace]
  let isLine (line : List Char) (r : Request) (i : Instr) : Prop :=
    (parseLine line).bind (·.request none) = some r ∧ decode (some 4294967295) r = .ok i
  isLine "encode_alaw 1000".toList (plain 0x000003E8) (.encodeAlaw 1000) ∧
  isLine "encode_alaw -1000".toList (plain 0x0000FC18) (.encodeAlaw (-1000)) ∧
  isLine "decode_alaw 0xFA".toList (plain 0x100000FA) (.decodeAlaw 0xFA) ∧
  isLine "encode_ulaw -1".toList (plain 0x2000FFFF) (.encodeUlaw (-1)) ∧
  isLine "decode_ulaw 0x4E".toList (plain 0x3000004E) (.decodeUlaw 0x4E) ∧
  isLine (braced "pcm_to_alaw " " e8 03 18 fc ") ⟨0x40000000, 0, 0, 4, [0xE8, 0x03, 0x18, 0xFC]⟩
    (.pcmToAlaw [0xE8, 0x03, 0x18, 0xFC]) ∧
  isLine (braced "alaw_to_pcm " " fa 7a ") ⟨0x50000000, 0, 0, 2, [0xFA, 0x7A]⟩ (.alawToPcm [0xFA, 0x7A]) ∧
  isLine (braced "pcm_to_ulaw " " e8 03 18 fc ") ⟨0x60000000, 0, 0, 4, [0xE8, 0x03, 0x18, 0xFC]⟩
    (.pcmToUlaw [0xE8, 0x03, 0x18, 0xFC]) ∧
  isLine (braced "ulaw_to_pcm " " ce 4e ") ⟨0x70000000, 0, 0, 2, [0xCE, 0x4E]⟩ (.ulawToPcm [0xCE, 0x4E]) ∧
  isLine (braced "resample_pcm16 8000, 16000, " " 00 00 64 00 ")
    ⟨0x80000000, 8000, 16000, 4, [0x00, 0x00, 0x64, 0x00]⟩
    (.resamplePcm16 8000 16000 [0x00, 0x00, 0x64, 0x00]) ∧
  decode (some 4294967295) (plain 0x90000000) = .error .reservedOpcode ∧
  decode (some 4294967295) (plain 0x00010000) = .error .reservedBits ∧
  decode (some 4294967295) (plain 0x10000100) = .error .reservedBits

/-- `resample` is another name of `resample_pcm16` in a line, whatever its operands (R56). -/
def Obligations.ResampleNamesTheSameOperation : Prop :=
  ∀ operands : List Char,
    parseLine ("resample ".toList ++ operands) = parseLine ("resample_pcm16 ".toList ++ operands)

/-- A step runs the instruction its request decodes to: the request in flight, or else the next of the host's
program, taken in the same step (70_reset_and_hazards.md R124). A rejected request is refused under the decoder's
reason, and an idle block to which nothing is issued stays as it is (the last clause is the model's choice,
notes/assumptions/3.md). -/
def Obligations.StepRunsDecodedInstruction : Prop :=
  (∀ (s : State) (r : Request) (i : Instr), decode s.params.lenMax r = .ok i →
    step (serving s r) = exec i (serving s r)) ∧
  (∀ (s : State) (r : Request) (rest : List Request) (i : Instr), s.busy = .idle → s.program = r :: rest →
    decode s.params.lenMax r = .ok i →
    step s = exec i { params := s.params, busy := .serving r, responses := s.responses, program := rest }) ∧
  (∀ (s : State) (r : Request) (e : Reject), decode s.params.lenMax r = .error e →
    step (serving s r) = .refused (refusalOf e)) ∧
  (∀ s : State, s.busy = .idle → s.program = [] → step s = .next s)

/-- `segment_index` (40_codec_sample.md R60): the least index `i` in 0..7 with `m <= 2^(i+8) - 1`, else 8. -/
def Obligations.SegmentIndexIsLeastThreshold : Prop :=
  ∀ m : Int, segmentIndex m ≤ 8 ∧
    (∀ i < segmentIndex m, 2 ^ (i + 8) - 1 < m) ∧
    (segmentIndex m < 8 → m ≤ 2 ^ (segmentIndex m + 8) - 1)

/-- `encode_alaw` (R61): its request, its one response, and the code. The quirk band gives 0xD5; otherwise the code
is the segment `g` of the magnitude `m` (R60) over its four quantisation bits `q`, under the mask of the sign. (That
`m` has a segment for every sample, so that the clamp arm is dead, is the rule's corner case (g).) -/
def Obligations.EncodeAlawFollowsItsRule : Prop :=
  ∀ (s : State) (sample : Word),
    let m : Int := if 0 ≤ sampleOf sample then sampleOf sample else -sampleOf sample - 8
    let mask : Nat := if 0 ≤ sampleOf sample then 0xD5 else 0x55
    decode s.params.lenMax (request 0x0 0 sample 0 0 0 []) = .ok (.encodeAlaw sample) ∧
    ∃ code : Byte, exec (.encodeAlaw sample) s = .next (served s ⟨0x00, code.setWidth 16, 0, []⟩) ∧
      if -8 ≤ sampleOf sample ∧ sampleOf sample ≤ -1 then code = 0xD5
      else ∃ g q : Nat, g < 8 ∧ (∀ i < g, 2 ^ (i + 8) - 1 < m) ∧ m ≤ 2 ^ (g + 8) - 1 ∧
        (q : Int) = (if g < 2 then m / 2 ^ 4 else m / 2 ^ (g + 3)) % 16 ∧ code.toNat = (16 * g + q) ^^^ mask

/-- `decode_alaw` (R62): its request, its one response, and the sample. Where the sign bit of the un-masked code is
clear it is 0 or the negated magnitude, as `ALAW_DEC_NEG` says. -/
def Obligations.DecodeAlawFollowsItsRule : Prop :=
  ∀ (s : State) (code : Byte),
    let v : Nat := code.toNat ^^^ 0x55
    let ms : Int := 16 * (v % 16)
    let g : Nat := v / 16 % 8
    let t : Int := if g = 0 then ms + 8 else if g = 1 then ms + 0x108 else (ms + 0x108) * 2 ^ (g - 1)
    decode s.params.lenMax (request 0x1 0 (0#8 ++ code) 0 0 0 []) = .ok (.decodeAlaw code) ∧
    ∃ r : Word, exec (.decodeAlaw code) s = .next (served s ⟨0x00, r, 0, []⟩) ∧
      sampleOf r =
        if 128 ≤ v then t
        else match s.params.alawDecNeg with
          | .zero => 0
          | .negate => -t

/-- `encode_ulaw` (R63): its request, its one response, and the code: clamped where no segment holds the biased
magnitude `m`, else its segment (R60) over its four quantisation bits, under the mask of the sign. -/
def Obligations.EncodeUlawFollowsItsRule : Prop :=
  ∀ (s : State) (sample : Word),
    let m : Int := if sampleOf sample < 0 then 0x84 - sampleOf sample else sampleOf sample + 0x84
    let mask : Nat := if sampleOf sample < 0 then 0x7F else 0xFF
    decode s.params.lenMax (request 0x2 0 sample 0 0 0 []) = .ok (.encodeUlaw sample) ∧
    ∃ code : Byte, exec (.encodeUlaw sample) s = .next (served s ⟨0x00, code.setWidth 16, 0, []⟩) ∧
      if 0x7FFF < m then code.toNat = 0x7F ^^^ mask
      else ∃ g q : Nat, g < 8 ∧ (∀ i < g, 2 ^ (i + 8) - 1 < m) ∧ m ≤ 2 ^ (g + 8) - 1 ∧
        (q : Int) = m / 2 ^ (g + 3) % 16 ∧ code.toNat = (16 * g + q) ^^^ mask

/-- `decode_ulaw` (R64): its request, its one response, and the sample, negative or 0 where the sign bit of the
complemented code is set. -/
def Obligations.DecodeUlawFollowsItsRule : Prop :=
  ∀ (s : State) (code : Byte),
    let v : Nat := 255 - code.toNat
    let t : Int := (8 * (v % 16) + 0x84) * 2 ^ (v / 16 % 8)
    decode s.params.lenMax (request 0x3 0 (0#8 ++ code) 0 0 0 []) = .ok (.decodeUlaw code) ∧
    ∃ r : Word, exec (.decodeUlaw code) s = .next (served s ⟨0x00, r, 0, []⟩) ∧
      sampleOf r = if 128 ≤ v then 0x84 - t else t - 0x84

/-- The quantisation cells of the encoders and the levels of the decoders, both laws, as the spec derives them (R61
and R63, "Cells"; R62 and R64, the tables of reconstruction values): the fields of the un-masked code of a sample name
the cell its magnitude lies in, and a code decodes to plus or minus its level. -/
def Obligations.CodesNameTheirCells : Prop :=
  (∀ sample : Word, ¬ (-8 ≤ sampleOf sample ∧ sampleOf sample ≤ -1) →
    inAlawCell (segField (encodeAlaw (sampleOf sample) ^^^ 0x55)) (quantField (encodeAlaw (sampleOf sample) ^^^ 0x55))
      (if 0 ≤ sampleOf sample then sampleOf sample else -sampleOf sample - 8)) ∧
  (∀ sample : Word, |sampleOf sample| ≤ 32635 →
    inUlawCell (segField (~~~encodeUlaw (sampleOf sample))) (quantField (~~~encodeUlaw (sampleOf sample)))
      (|sampleOf sample| + 132)) ∧
  (∀ code : Byte, decodeAlaw .negate code = (if 128 ≤ code.toNat then 1 else -1) * (alawLevel code : Int) ∧
    decodeUlaw code = (if 128 ≤ code.toNat then 1 else -1) * (ulawLevel code : Int))

/-- The A-law code of a negative sample is that of the magnitude less 8, under the other sign (90_conflicts.md C3,
95_test_vectors.md section 2.2). -/
def Obligations.AlawNegativeHalfIsOffset : Prop :=
  ∀ x : Int, 9 ≤ x → x ≤ 32768 → encodeAlaw (-x) = encodeAlaw (x - 8) ^^^ 0x80

/-- µ-law is symmetric, encoder and decoder (R64 corner case (d), 95_test_vectors.md section 2.4). -/
def Obligations.UlawIsSymmetric : Prop :=
  (∀ x : Int, 1 ≤ x → x ≤ 32767 → encodeUlaw (-x) = encodeUlaw x ^^^ 0x80) ∧
  (∀ code : Byte, decodeUlaw (code ^^^ 0x80) = -decodeUlaw code)

/-- Re-encoding a decoded code (R65(f)): µ-law gives it back but for 0x7F; A-law under `NEGATE` but for 0x55, and
under `ZERO` for the codes with bit 7 set only, all others giving 0xD5. The two requests may be served from any two
states, the decoder's parameters deciding. -/
def Obligations.ReencodingADecodedCode : Prop :=
  ∀ (s t : State) (code : Byte),
    (∃ v : Word, exec (.decodeUlaw code) s = .next (served s ⟨0x00, v, 0, []⟩) ∧
      exec (.encodeUlaw v) t =
        .next (served t ⟨0x00, (if code = 0x7F then 0xFF else code : Byte).setWidth 16, 0, []⟩)) ∧
    (∃ v : Word, exec (.decodeAlaw code) s = .next (served s ⟨0x00, v, 0, []⟩) ∧
      ∃ again : Byte, exec (.encodeAlaw v) t = .next (served t ⟨0x00, again.setWidth 16, 0, []⟩) ∧
        again = match s.params.alawDecNeg with
          | .negate => if code = 0x55 then 0xD5 else code
          | .zero => if 128 ≤ code.toNat then code else 0xD5)

/-- Each of the 256 codes is returned for some sample, in both laws (R65(c)). -/
def Obligations.EveryCodeIsProduced : Prop :=
  ∀ code : Byte, (∃ sample : Word, encodeAlaw (sampleOperand sample) = code) ∧
    (∃ sample : Word, encodeUlaw (sampleOperand sample) = code)

/-- The sign bit of a code (R65(e)) and the ranges of the decoders (R65(d)). -/
def Obligations.SignBitsAndDecoderRanges : Prop :=
  (∀ sample : Word, (128 ≤ (encodeAlaw (sampleOperand sample)).toNat ↔ -8 ≤ sampleOf sample) ∧
    (128 ≤ (encodeUlaw (sampleOperand sample)).toNat ↔ 0 ≤ sampleOf sample)) ∧
  (∀ code : Byte, |decodeAlaw .negate code| ≤ 32256 ∧ 0 ≤ decodeAlaw .zero code ∧
    decodeAlaw .zero code ≤ 32256 ∧ |decodeUlaw code| ≤ 32124)

/-- The round trips are non-decreasing in the sample, A-law under `NEGATE` (R65(g)). -/
def Obligations.RoundTripsAreMonotone : Prop :=
  ∀ x y : Int, -32768 ≤ x → x ≤ y → y ≤ 32767 →
    decodeUlaw (encodeUlaw x) ≤ decodeUlaw (encodeUlaw y) ∧
    decodeAlaw .negate (encodeAlaw x) ≤ decodeAlaw .negate (encodeAlaw y)

/-- The µ-law round-trip error (R66(a)): at most the step of the code's segment, half of it without clamping, and
at most 644 in all. -/
def Obligations.UlawRoundTripError : Prop :=
  ∀ x : Int, -32768 ≤ x → x ≤ 32767 →
    |decodeUlaw (encodeUlaw x) - x| ≤ ulawStepSize (encodeUlaw x) ∧
    |decodeUlaw (encodeUlaw x) - x| ≤ 644 ∧
    (|x| ≤ 32635 → 2 * |decodeUlaw (encodeUlaw x) - x| ≤ ulawStepSize (encodeUlaw x))

/-- The A-law round-trip error (R66(b), (c), (d)): half a step for a sample at or above 0, 16 in the quirk band,
half a step and 7 below it under `NEGATE`, the whole sample under `ZERO`. -/
def Obligations.AlawRoundTripError : Prop :=
  ∀ (neg : AlawDecNeg) (x : Int), -32768 ≤ x → x ≤ 32767 →
    let y := decodeAlaw neg (encodeAlaw x)
    let stepSize := alawStepSize (encodeAlaw x)
    if 0 ≤ x then 2 * |y - x| ≤ stepSize
    else if -8 ≤ x then y = 8 ∧ |y - x| ≤ 16
    else match neg with
      | .negate => 2 * |y - x| ≤ stepSize + 14 ∧ |y - x| ≤ stepSize
      | .zero => y = 0

/-- `MemRead` (20_memory.md R22) and the samples of a buffer (R24, R25): one byte, or two with the lower offset
less significant, the same two bytes that the sample's pattern is made of; outside the buffer the model's guard
faults, as R22 allows (notes/assumptions/9.md). -/
def Obligations.ReadsAreLittleEndian : Prop :=
  ∀ (data : List Byte) (addr k : Nat),
    memRead data addr 1 =
      (if h : addr + 1 ≤ data.length then .ok (data[addr]'(by omega)).toNat else .error .readOutside) ∧
    memRead data addr 2 =
      (if h : addr + 2 ≤ data.length then
        .ok ((data[addr]'(by omega)).toNat + 256 * (data[addr + 1]'(by omega)).toNat)
      else .error .readOutside) ∧
    (∀ h : 2 * k + 2 ≤ data.length, ∃ x : Int, sampleAt data k = .ok x ∧ -32768 ≤ x ∧ x ≤ 32767 ∧
      (tc16 x).extractLsb' 0 8 = data[2 * k]'(by omega) ∧ (tc16 x).extractLsb' 8 8 = data[2 * k + 1]'(by omega))

/-- `MemWrite` (R23): it sets the one or two bytes, less significant first, and changes nothing else. That the space
is a canonical list of cells, and stays one, is the model's choice (`out.wf`, `m.wf`; notes/assumptions/10.md). -/
def Obligations.MemWriteSetsItsBytesOnly : Prop :=
  ∀ (olen : Nat) (out : Memory) (addr n v : Nat), out.wf → addr + n ≤ olen →
    (n = 1 ∧ v < 256 ∨ n = 2 ∧ v < 65536) →
    ∃ m : Memory, memWrite olen out addr n v = .ok m ∧ m.wf ∧
      m.read addr = some (BitVec.ofNat 8 (v % 256)) ∧
      (n = 2 → m.read (addr + 1) = some (BitVec.ofNat 8 (v / 256))) ∧
      (∀ a, a < addr ∨ addr + n ≤ a → m.read a = out.read a)

/-- `pcm_to_alaw` (41_codec_buffer.md R71): the error on an odd length, else one code per sample, in order. -/
def Obligations.PcmToAlawEncodesEverySample : Prop :=
  ∀ (s : State) (data : List Byte),
    (withinLenMax s.params.lenMax data.length = true →
      decode s.params.lenMax (request 0x4 0 0 0 0 data.length data) = .ok (.pcmToAlaw data)) ∧
    if data.length % 2 = 1 then exec (.pcmToAlaw data) s = .next (served s ⟨0x01, 0, 0, []⟩)
    else ∃ odata : List Byte,
      exec (.pcmToAlaw data) s = .next (served s ⟨0x00, 0, data.length / 2, odata⟩) ∧
      odata.length = data.length / 2 ∧
      ∀ k < data.length / 2, odata[k]? = some (encodeAlaw (pcmSample data k))

/-- `pcm_to_ulaw` (R73): the error on an odd length, else one code per sample, in order. -/
def Obligations.PcmToUlawEncodesEverySample : Prop :=
  ∀ (s : State) (data : List Byte),
    (withinLenMax s.params.lenMax data.length = true →
      decode s.params.lenMax (request 0x6 0 0 0 0 data.length data) = .ok (.pcmToUlaw data)) ∧
    if data.length % 2 = 1 then exec (.pcmToUlaw data) s = .next (served s ⟨0x01, 0, 0, []⟩)
    else ∃ odata : List Byte,
      exec (.pcmToUlaw data) s = .next (served s ⟨0x00, 0, data.length / 2, odata⟩) ∧
      odata.length = data.length / 2 ∧
      ∀ k < data.length / 2, odata[k]? = some (encodeUlaw (pcmSample data k))

/-- `alaw_to_pcm` (R72): one sample per code, in order, at any length whose output `LEN_MAX` allows; refused
above (30_encoding.md R53). That decoding accepts such a request and the operation refuses it is the model's deduction
(notes/assumptions/12.md). -/
def Obligations.AlawToPcmDecodesEveryCode : Prop :=
  ∀ (s : State) (data : List Byte),
    (withinLenMax s.params.lenMax data.length = true →
      decode s.params.lenMax (request 0x5 0 0 0 0 data.length data) = .ok (.alawToPcm data)) ∧
    if withinLenMax s.params.lenMax (2 * data.length) = true then ∃ odata : List Byte,
      exec (.alawToPcm data) s = .next (served s ⟨0x00, 0, 2 * data.length, odata⟩) ∧
      odata.length = 2 * data.length ∧
      ∀ k, ∀ h : k < data.length, pcmSample odata k = decodeAlaw s.params.alawDecNeg data[k]
    else exec (.alawToPcm data) s = .refused .lengthOutOfRange

/-- `ulaw_to_pcm` (R74): one sample per code, in order, at any length whose output `LEN_MAX` allows; refused
above (30_encoding.md R53). That decoding accepts such a request and the operation refuses it is the model's deduction
(notes/assumptions/12.md). -/
def Obligations.UlawToPcmDecodesEveryCode : Prop :=
  ∀ (s : State) (data : List Byte),
    (withinLenMax s.params.lenMax data.length = true →
      decode s.params.lenMax (request 0x7 0 0 0 0 data.length data) = .ok (.ulawToPcm data)) ∧
    if withinLenMax s.params.lenMax (2 * data.length) = true then ∃ odata : List Byte,
      exec (.ulawToPcm data) s = .next (served s ⟨0x00, 0, 2 * data.length, odata⟩) ∧
      odata.length = 2 * data.length ∧
      ∀ k, ∀ h : k < data.length, pcmSample odata k = decodeUlaw data[k]
    else exec (.ulawToPcm data) s = .refused .lengthOutOfRange

/-- Concatenation (R75(b)): the output of a buffer in two parts is the outputs of the parts, one after the other;
the parts are of even length for the PCM-consuming operations. -/
def Obligations.BufferOperationsConcatenate : Prop :=
  ∀ (s : State) (xs ys bx by' : List Byte) (nx ny : Nat),
    (∀ op ∈ [Instr.pcmToAlaw, Instr.pcmToUlaw], xs.length % 2 = 0 →
      exec (op xs) s = .next (served s ⟨0x00, 0, nx, bx⟩) → exec (op ys) s = .next (served s ⟨0x00, 0, ny, by'⟩) →
      exec (op (xs ++ ys)) s = .next (served s ⟨0x00, 0, nx + ny, bx ++ by'⟩)) ∧
    (∀ op ∈ [Instr.alawToPcm, Instr.ulawToPcm], withinLenMax s.params.lenMax (2 * (xs ++ ys).length) = true →
      exec (op xs) s = .next (served s ⟨0x00, 0, nx, bx⟩) → exec (op ys) s = .next (served s ⟨0x00, 0, ny, by'⟩) →
      exec (op (xs ++ ys)) s = .next (served s ⟨0x00, 0, nx + ny, bx ++ by'⟩))

/-- A buffer operation on one element agrees with the per-sample operation (R75(c)). -/
def Obligations.OneElementBufferAgrees : Prop :=
  ∀ (s : State) (lo hi code : Byte) (v : Word),
    (exec (.encodeAlaw (hi ++ lo)) s = .next (served s ⟨0x00, 0#8 ++ code, 0, []⟩) →
      exec (.pcmToAlaw [lo, hi]) s = .next (served s ⟨0x00, 0, 1, [code]⟩)) ∧
    (exec (.encodeUlaw (hi ++ lo)) s = .next (served s ⟨0x00, 0#8 ++ code, 0, []⟩) →
      exec (.pcmToUlaw [lo, hi]) s = .next (served s ⟨0x00, 0, 1, [code]⟩)) ∧
    (withinLenMax s.params.lenMax 2 = true →
      (exec (.decodeAlaw code) s = .next (served s ⟨0x00, v, 0, []⟩) →
        exec (.alawToPcm [code]) s = .next (served s ⟨0x00, 0, 2, [v.extractLsb' 0 8, v.extractLsb' 8 8]⟩)) ∧
      (exec (.decodeUlaw code) s = .next (served s ⟨0x00, v, 0, []⟩) →
        exec (.ulawToPcm [code]) s = .next (served s ⟨0x00, 0, 2, [v.extractLsb' 0 8, v.extractLsb' 8 8]⟩)))

/-- Compressing a buffer by µ-law and expanding it again gives a buffer of the same length, each sample within the
step of its code's segment (R75(d), R66(a)). -/
def Obligations.UlawBufferRoundTrip : Prop :=
  ∀ (s t : State) (data : List Byte) (n : Nat) (codes : List Byte), data.length % 2 = 0 →
    withinLenMax t.params.lenMax data.length = true →
    exec (.pcmToUlaw data) s = .next (served s ⟨0x00, 0, n, codes⟩) →
    ∃ back : List Byte, exec (.ulawToPcm codes) t = .next (served t ⟨0x00, 0, data.length, back⟩) ∧
      back.length = data.length ∧
      ∀ k, ∀ h : k < codes.length, |pcmSample back k - pcmSample data k| ≤ ulawStepSize codes[k]

/-- Compressing a buffer by A-law and expanding it again gives a buffer of the same length, each sample within the
bound of its sign and of the expander's `ALAW_DEC_NEG` (R75(d), R66(b), (c), (d)). -/
def Obligations.AlawBufferRoundTrip : Prop :=
  ∀ (s t : State) (data : List Byte) (n : Nat) (codes : List Byte), data.length % 2 = 0 →
    withinLenMax t.params.lenMax data.length = true →
    exec (.pcmToAlaw data) s = .next (served s ⟨0x00, 0, n, codes⟩) →
    ∃ back : List Byte, exec (.alawToPcm codes) t = .next (served t ⟨0x00, 0, data.length, back⟩) ∧
      back.length = data.length ∧
      ∀ k, ∀ h : k < codes.length,
        let x := pcmSample data k
        let y := pcmSample back k
        let stepSize := alawStepSize codes[k]
        if 0 ≤ x then 2 * |y - x| ≤ stepSize
        else if -8 ≤ x then y = 8
        else match t.params.alawDecNeg with
          | .negate => 2 * |y - x| ≤ stepSize + 14
          | .zero => y = 0

/-- Expanding A-law codes and compressing the result never gives the error (R75(e)), and gives as many codes. -/
def Obligations.AlawChainNeverErrs : Prop :=
  ∀ (s t : State) (codes : List Byte) (n : Nat) (pcm : List Byte),
    exec (.alawToPcm codes) s = .next (served s ⟨0x00, 0, n, pcm⟩) →
    ∃ back : List Byte, exec (.pcmToAlaw pcm) t = .next (served t ⟨0x00, 0, codes.length, back⟩) ∧
      back.length = codes.length

/-- `InvalidBufferLength` (60_exceptions.md R101): an odd-length PCM input gives the error response, whatever the
rates, and leaves the block idle. The second clause, that no other request gives that status, is the spec's inference
in R103 (over the closed lists of R100 and R17). -/
def Obligations.ErrorExactlyOnOddPcm : Prop :=
  (∀ (s : State) (i : Instr) (data : List Byte), pcmInput i = some data → data.length % 2 = 1 →
    exec i s = .next (served s ⟨0x01, 0, 0, []⟩)) ∧
  (∀ (s : State) (i : Instr) (resp : Response), exec i s = .next (served s resp) →
    (resp.status = 0x00 ∨ resp.status = 0x01) ∧
    (resp.status = 0x01 → ∃ data, pcmInput i = some data ∧ data.length % 2 = 1))

/-- The buffer sizes of the responses with status `OK` (20_memory.md R36), the resampler's with equal rates among
them; and `OLEN` is the length of `ODATA` in every operation (10_state.md R16). The resampler's `m` is the model's
`outputCount`, which under binary64 takes values as rationals (notes/assumptions/7.md) and, where `LEN_MAX` is over 2^53
or unbounded, rests on the model's choice for integers above 2^53 (notes/assumptions/8.md). -/
def Obligations.OutputLengths : Prop :=
  ∀ (s : State) (data : List Byte) (inRate outRate : Rate) (resp : Response), resp.status = 0x00 →
    (exec (.pcmToAlaw data) s = .next (served s resp) → resp.olen = data.length / 2) ∧
    (exec (.pcmToUlaw data) s = .next (served s resp) → resp.olen = data.length / 2) ∧
    (exec (.alawToPcm data) s = .next (served s resp) → resp.olen = 2 * data.length) ∧
    (exec (.ulawToPcm data) s = .next (served s resp) → resp.olen = 2 * data.length) ∧
    (exec (.resamplePcm16 inRate outRate data) s = .next (served s resp) →
      if inRate = outRate then resp.olen = data.length
      else resp.olen = 2 * outputCount (arithOf s.params.num s.params.round) (data.length / 2)
        (resampleRatio (arithOf s.params.num s.params.round) inRate outRate)) ∧
    (∀ i, exec i s = .next (served s resp) → resp.odata.length = resp.olen)

/-- Reserved opcodes, reserved bits and unused fields (30_encoding.md R50, R51, R52): such a request is refused. -/
def Obligations.ReservedRequestsAreRefused : Prop :=
  ∀ (s : State) (op : BitVec 4) (zero : BitVec 12) (a : Word) (inRate outRate : Rate) (len : Nat)
    (data : List Byte),
    (9 ≤ op.toNat → step (serving s (request op zero a inRate outRate len data)) = .refused .reservedOpcode) ∧
    (zero ≠ 0 →
      ∃ reason, step (serving s (request op zero a inRate outRate len data)) = .refused reason) ∧
    (unusedFieldSet op a inRate outRate len data →
      ∃ reason, step (serving s (request op zero a inRate outRate len data)) = .refused reason)

/-- The priority of the conditions of one request (60_exceptions.md R107): the first that holds decides; where
none holds the response has status `OK`, or the resampler's computation faults (R100). The bound on the output is
30_encoding.md R53's; the resampler's `m` in it is the model's `outputCount`, which under binary64 takes values as
rationals (notes/assumptions/7.md) and, where `LEN_MAX` is over 2^53 or unbounded, rests on the model's choice for
integers above 2^53 (notes/assumptions/8.md). -/
def Obligations.PriorityOfConditions : Prop :=
  ∀ (s : State) (op : BitVec 4) (zero : BitVec 12) (a : Word) (inRate outRate : Rate) (len : Nat)
    (data : List Byte),
    let o := step (serving s (request op zero a inRate outRate len data))
    if 9 ≤ op.toNat then o = .refused .reservedOpcode
    else if zero ≠ 0 ∨ unusedFieldSet op a inRate outRate len data then o = .refused .reservedBits
    else if len ≠ data.length ∨ withinLenMax s.params.lenMax len = false then o = .refused .lengthOutOfRange
    else if (op = 0x4 ∨ op = 0x6 ∨ op = 0x8) ∧ len % 2 = 1 then o = .next (served s ⟨0x01, 0, 0, []⟩)
    else if op = 0x8 ∧ inRate = outRate then o = .next (served s ⟨0x00, 0, len, data⟩)
    else if op = 0x8 ∧ inRate = 0 then o = .refused .reservedRate
    else if withinLenMax s.params.lenMax (boundedOutputLength s op inRate outRate data) = false then
      o = .refused .lengthOutOfRange
    else (∃ resp : Response, o = .next (served s resp) ∧ resp.status = 0x00) ∨ (op = 0x8 ∧ ∃ f, o = .fault f)

/-- Rates (42_resampler.md R86, R91(b)) on an even-length buffer: equal rates, zero among them, give the input
back; a zero input rate beside another output rate is refused; a zero output rate beside another input rate gives
an empty buffer. -/
def Obligations.ResampleRateCases : Prop :=
  ∀ (s : State) (data : List Byte) (rate : Rate), data.length % 2 = 0 →
    exec (.resamplePcm16 rate rate data) s = .next (served s ⟨0x00, 0, data.length, data⟩) ∧
    (rate ≠ 0 → exec (.resamplePcm16 0 rate data) s = .refused .reservedRate) ∧
    (rate ≠ 0 → exec (.resamplePcm16 rate 0 data) s = .next (served s ⟨0x00, 0, 0, []⟩))

/-- One output sample of the resampler under any arithmetic (R88, R89, R90): outside the input it faults, at the
last input sample it copies, between two it interpolates and narrows. -/
def Obligations.OutputSampleUnderAnyArithmetic : Prop :=
  ∀ (A : Arith) (data : List Byte) (ratio : A.F) (k : Nat),
    let n := data.length / 2
    let p := A.fdiv (A.ofInt k) ratio
    let index := A.ffloor p
    let frac := A.fsub p (A.ofInt index)
    let x0 := pcmSample data index.toNat
    let x1 := pcmSample data (index.toNat + 1)
    let y := A.fround (A.fadd (A.fmul (A.ofInt x0) (A.fsub (A.ofInt 1) frac)) (A.fmul (A.ofInt x1) frac))
    resampleSample A data n ratio k =
      if index < 0 ∨ n ≤ index then .error .indexOutOfRange
      else if index = n - 1 then .ok x0
      else if y < -32768 ∨ 32767 < y then .error .narrowOverflow
      else .ok y

/-- The resampler under `EXACT` (R93) completes whenever its output fits, with `m = floor(n * OUT / IN)` samples,
each interpolated between its two neighbours or copied at the tail. -/
def Obligations.ResampleExactComputes : Prop :=
  ∀ (s : State) (inRate outRate : Rate) (data : List Byte),
    s.params.num = .exact → data.length % 2 = 0 → inRate ≠ outRate → inRate ≠ 0 →
    let n := data.length / 2
    let m := n * outRate.toNat / inRate.toNat
    withinLenMax s.params.lenMax (2 * m) = true →
    ∃ odata : List Byte,
      exec (.resamplePcm16 inRate outRate data) s = .next (served s ⟨0x00, 0, 2 * m, odata⟩) ∧
      odata.length = 2 * m ∧
      ∀ k < m,
        let index := k * inRate.toNat / outRate.toNat
        let rest := k * inRate.toNat % outRate.toNat
        index < n ∧
        pcmSample odata k =
          if index + 1 < n then
            roundBy s.params.round
              (((pcmSample data index : Rat) * ((outRate.toNat : Rat) - (rest : Rat)) +
                (pcmSample data (index + 1) : Rat) * (rest : Rat)) / (outRate.toNat : Rat))
          else pcmSample data index

/-- The resampler under binary64 (R82, R87, R88, R90, R92(c)) with `LEN_MAX <= 2^32` completes whenever its output
fits: `m` samples, each between the two neighbours of its position and as R88 computes it, or copied at the tail. The
values are the rationals they stand for, the model's reading (notes/assumptions/7.md). A greater or no `LEN_MAX` is in
`Obligations.ResampleGivesEverySampleOrStops`. -/
def Obligations.ResampleBinary64Computes : Prop :=
  ∀ (s : State) (inRate outRate : Rate) (data : List Byte) (lenMax : Nat),
    s.params.num = .binary64 → s.params.lenMax = some lenMax → lenMax ≤ 4294967296 → data.length ≤ lenMax →
    data.length % 2 = 0 → inRate ≠ outRate → inRate ≠ 0 →
    let n := data.length / 2
    let ratio := binary64Round ((outRate.toNat : Rat) / (inRate.toNat : Rat))
    let m := (binary64Round ((n : Rat) * ratio)).floor.toNat
    2 * m ≤ lenMax →
    ∃ odata : List Byte,
      exec (.resamplePcm16 inRate outRate data) s = .next (served s ⟨0x00, 0, 2 * m, odata⟩) ∧
      odata.length = 2 * m ∧
      ∀ k < m,
        let p := binary64Round ((k : Rat) / ratio)
        let index := p.floor.toNat
        let frac := binary64Round (p - (index : Rat))
        let x0 := pcmSample data index
        let x1 := pcmSample data (index + 1)
        index < n ∧
        if index + 1 < n then
          pcmSample odata k = roundBy s.params.round (binary64Round
            (binary64Round ((x0 : Rat) * binary64Round (1 - frac)) + binary64Round ((x1 : Rat) * frac))) ∧
          between x0 x1 (pcmSample odata k)
        else pcmSample odata k = x0

/-- The first output sample is the first input sample (R92(b)), under every parameter. -/
def Obligations.ResampleKeepsFirstSample : Prop :=
  ∀ (s : State) (inRate outRate : Rate) (data : List Byte) (resp : Response),
    exec (.resamplePcm16 inRate outRate data) s = .next (served s resp) → resp.odata ≠ [] →
    pcmSample resp.odata 0 = pcmSample data 0

/-- Doubling the rate (R92(f)), under both arithmetics and both tie rules: the even outputs are the inputs, the
odd ones the rounded midpoints, the last two the last input. -/
def Obligations.ResampleDoubling : Prop :=
  ∀ (s : State) (inRate outRate : Rate) (data : List Byte) (lenMax : Nat),
    s.params.lenMax = some lenMax → lenMax ≤ 2 ^ 53 → data.length % 2 = 0 → 2 * data.length ≤ lenMax →
    inRate ≠ 0 → outRate.toNat = 2 * inRate.toNat →
    ∃ odata : List Byte,
      exec (.resamplePcm16 inRate outRate data) s = .next (served s ⟨0x00, 0, 2 * data.length, odata⟩) ∧
      odata.length = 2 * data.length ∧
      ∀ j < data.length / 2,
        pcmSample odata (2 * j) = pcmSample data j ∧
        pcmSample odata (2 * j + 1) =
          if j + 1 < data.length / 2 then
            roundBy s.params.round (((pcmSample data j : Rat) + (pcmSample data (j + 1) : Rat)) / 2)
          else pcmSample data j

/-- Halving the rate (R92(e), R94), under both arithmetics: every second sample, and no filter. -/
def Obligations.ResampleHalving : Prop :=
  ∀ (s : State) (inRate outRate : Rate) (data : List Byte) (lenMax : Nat),
    s.params.lenMax = some lenMax → lenMax ≤ 2 ^ 53 → data.length % 2 = 0 → data.length ≤ lenMax →
    outRate ≠ 0 → inRate.toNat = 2 * outRate.toNat →
    ∃ odata : List Byte,
      exec (.resamplePcm16 inRate outRate data) s = .next (served s ⟨0x00, 0, 2 * (data.length / 4), odata⟩) ∧
      odata.length = 2 * (data.length / 4) ∧
      ∀ k < data.length / 4, pcmSample odata k = pcmSample data (2 * k)

/-- `fround` (R84): a nearest integer; half-way cases go away from zero, or to the even one. -/
def Obligations.FroundIsNearest : Prop :=
  ∀ x : Rat,
    |(roundBy .tiesAway x : Rat) - x| ≤ 1 / 2 ∧
    (|(roundBy .tiesAway x : Rat) - x| = 1 / 2 → |x| < |(roundBy .tiesAway x : Rat)|) ∧
    |(roundBy .tiesEven x : Rat) - x| ≤ 1 / 2 ∧
    (|(roundBy .tiesEven x : Rat) - x| = 1 / 2 → roundBy .tiesEven x % 2 = 0)

/-- `ofInt` is exact up to 2^53 under binary64, and `ffloor` is the greatest integer not above its argument
(R83). -/
def Obligations.OfIntIsExact : Prop :=
  ∀ rule : TieRule,
    (∀ i : Int, |i| ≤ 2 ^ 53 → (arithOf .binary64 rule).ofInt i = (i : Rat)) ∧
    (∀ x : Rat, IsGreatest { i : Int | (i : Rat) ≤ x } ((arithOf .binary64 rule).ffloor x))

/-- One binary64 rounding (R82, G5): the result has at most 53 significant bits, lies within half a unit of its
last place, and has an even significand when it is half-way. -/
def Obligations.Binary64RoundsOnceTiesToEven : Prop :=
  ∀ q : Rat, ∃ m e : Int, binary64Round q = m * (2 : Rat) ^ e ∧ |m| ≤ 2 ^ 53 ∧ -1074 ≤ e ∧
    (2 ^ 52 ≤ |m| ∨ e = -1074) ∧
    |binary64Round q - q| ≤ (2 : Rat) ^ e / 2 ∧
    (|binary64Round q - q| = (2 : Rat) ^ e / 2 → m % 2 = 0)

/-- No binary64 value is nearer than the rounded one (R82). -/
def Obligations.Binary64RoundsToNearest : Prop :=
  ∀ q : Rat, isBinary64 (binary64Round q) ∧
    ∀ y : Rat, isBinary64 y → |binary64Round q - q| ≤ |y - q|

/-- Where binary64 and `EXACT` differ (R93(a), (b)): two output counts and one index. -/
def Obligations.Binary64DiffersFromExact : Prop :=
  ∀ rule : TieRule,
    let B := arithOf .binary64 rule
    let E := arithOf .exact rule
    outputCount B 27 (resampleRatio B 3 13) = 116 ∧ outputCount E 27 (resampleRatio E 3 13) = 117 ∧
    outputCount B 49 (resampleRatio B 49 1) = 0 ∧ outputCount E 49 (resampleRatio E 49 1) = 1 ∧
    B.ffloor (B.fdiv (B.ofInt 35) (resampleRatio B 3 7)) = 14 ∧
    E.ffloor (E.fdiv (E.ofInt 35) (resampleRatio E 3 7)) = 15

/-- The only faults are the resampler's two (60_exceptions.md R105); the codec half has none. -/
def Obligations.FaultsOnlyInResampler : Prop :=
  ∀ (i : Instr) (s : State) (f : Fault), exec i s = .fault f →
    (∃ inRate outRate data, i = .resamplePcm16 inRate outRate data) ∧
    (f = .indexOutOfRange ∨ f = .narrowOverflow)

/-- "Neither arm can be reached under the default NUM with LEN_MAX <= 2^32, nor under EXACT with any LEN_MAX"
(42_resampler.md R90): such a machine takes no faulting step, from any state. -/
def Obligations.NoStepFaults : Prop :=
  ∀ s : State,
    (s.params.num = .exact ∨ ∃ lenMax, s.params.lenMax = some lenMax ∧ lenMax ≤ 4294967296) → s.stepSafe

/-- What an operation leaves unchanged (10_state.md R14, R16): the parameters and the host's program stay, the
responses already given stay and exactly one is added, and the block is idle. All nine operations. -/
def Obligations.ExecFrame : Prop :=
  ∀ (i : Instr) (s t : State), exec i s = .next t →
    t.params = s.params ∧ t.program = s.program ∧ t.busy = .idle ∧
    ∃ resp : Response, t.responses = s.responses ++ [resp]

/-- The parameters do not change during a run, and the block is idle after every step (70_reset_and_hazards.md
R123(c), R124). -/
def Obligations.StepKeepsParametersAndEndsIdle : Prop :=
  ∀ s t : State, step s = .next t → t.params = s.params ∧ t.busy = .idle

/-- Exactly one response per request (60_exceptions.md R115, R124): a step that takes a request adds one response
after those given, and leaves one request less to answer. -/
def Obligations.OneResponsePerRequest : Prop :=
  ∀ s t : State, step s = .next t →
    s.responses <+: t.responses ∧
    t.responses.length + t.outstanding = s.responses.length + s.outstanding

/-- The determinism law (R112, R19): what a request gets is a function of its fields and the parameters, whatever
responses were given before and whatever the host will issue. -/
def Obligations.ResponseDependsOnRequestOnly : Prop :=
  ∀ (params : Params) (r : Request), ∃ o : Host.Outcome Response Fault Refusal,
    ∀ s : State, s.params = params → step (serving s r) = respond s o

/-- Every step keeps the responses legal (R16, R17): `OLEN` the length of `ODATA` and within `LEN_MAX`, the status
one of the two, nothing beside an error. -/
def Obligations.StepKeepsResponsesLegal : Prop :=
  ∀ s t : State, s.responsesLegal → step s = .next t → t.responsesLegal

/-- Reset (R120, R121): the state after reset is idle with no response, and resetting a running machine drops the
request in flight, so that the next request is issued as if that one had not been. That State.reset carries R4's
defaults is the model's choice (notes/assumptions/1.md; R120 says that reset touches no parameter), and that resetting
a running machine keeps the other fields is its inference (notes/assumptions/18.md). -/
def Obligations.ResetLeavesIdle : Prop :=
  State.reset.busy = .idle ∧ State.reset.responses = [] ∧ State.reset.params.alawDecNeg = .zero ∧
  State.reset.params.num = .binary64 ∧ State.reset.params.round = .tiesAway ∧ State.reset.responsesLegal ∧
  (∀ s : State, s.resetBlock = { s with busy := .idle }) ∧
  (∀ (s dropped : State) (r r' : Request), s.issue r = some dropped →
    dropped.resetBlock.issue r' = s.issue r')

/-- A busy block takes no request (R124, 93_implementation_defined.md U14); an idle one takes any. -/
def Obligations.BusyBlockTakesNoRequest : Prop :=
  ∀ (s : State) (r : Request),
    (s.busy = .idle → s.issue r = some (serving s r)) ∧
    (∀ held : Request, s.busy = .serving held → s.issue r = none)

/-- Instances are independent (R114): a step of one leaves every other as it was, and does not change what another
one's step does; two such steps give the same system in either order. -/
def Obligations.InstancesAreIndependent : Prop :=
  ∀ (nInst : Nat) (sys sys' : System nInst) (i j : Fin nInst), i ≠ j → stepInstance sys i = .next sys' →
    sys'[j] = sys[j] ∧
    (∀ f, stepInstance sys j = .fault f → stepInstance sys' j = .fault f) ∧
    (∀ reason, stepInstance sys j = .refused reason → stepInstance sys' j = .refused reason) ∧
    (∀ sys'', stepInstance sys j = .next sys'' →
      ∃ both, stepInstance sys' j = .next both ∧ stepInstance sys'' i = .next both)

/-- The resampler's computation under either arithmetic and any `LEN_MAX` (R81 steps 4 and 5, R88): refused where its
output does not fit; else one response with the output samples where all are defined, and the fault of the first one
that is not. The values of binary64 are rationals (notes/assumptions/7.md), and integers above 2^53 are rounded
(notes/assumptions/8.md). -/
def Obligations.ResampleGivesEverySampleOrStops : Prop :=
  ∀ (s : State) (inRate outRate : Rate) (data : List Byte),
    data.length % 2 = 0 → inRate ≠ outRate → inRate ≠ 0 →
    let A := arithOf s.params.num s.params.round
    let ratio := resampleRatio A inRate outRate
    let m := outputCount A (data.length / 2) ratio
    let outputSample := resampleSample A data (data.length / 2) ratio
    (withinLenMax s.params.lenMax (2 * m) = false →
      exec (.resamplePcm16 inRate outRate data) s = .refused .lengthOutOfRange) ∧
    (withinLenMax s.params.lenMax (2 * m) = true →
      (∀ y : Nat → Int, (∀ k < m, outputSample k = .ok (y k)) → ∃ odata : List Byte,
        exec (.resamplePcm16 inRate outRate data) s = .next (served s ⟨0x00, 0, 2 * m, odata⟩) ∧
        odata.length = 2 * m ∧ ∀ k < m, pcmSample odata k = y k) ∧
      (∀ k < m, ∀ f, outputSample k = .error f → (∀ j < k, ∃ y, outputSample j = .ok y) →
        exec (.resamplePcm16 inRate outRate data) s = .fault f))

/-- Equal requests get equal responses on whichever instance they run (R19, R114), in a system whose instances share
one setting of R4's parameters; a step of an instance keeps it so. That a system may also mix settings is the model's
choice (notes/assumptions/22.md). -/
def Obligations.EqualRequestsOnAnyInstance : Prop :=
  ∀ (nInst : Nat) (sys : System nInst), sys.oneSetting →
    (∀ (i : Fin nInst) (sys' : System nInst), stepInstance sys i = .next sys' → sys'.oneSetting) ∧
    (∀ (i j : Fin nInst) (r : Request), ∃ o : Host.Outcome Response Fault Refusal,
      step (serving sys[i] r) = respond sys[i] o ∧ step (serving sys[j] r) = respond sys[j] o)
end

