-- ==== Sys2Proof/Laws/Arith.lean ====
section
/-! SUPPORT. The rounding of the resampler's arithmetic (42_resampler.md R82 to R84): what an integer rounding and a
binary64 rounding can do, each said once. -/

namespace Sys2Proof.Machine

/-! ### Rounding to an integer -/

/-- The two integers around a rational. -/
theorem floor_bounds (x : Rat) : (x.floor : Rat) ≤ x ∧ x < (x.floor : Rat) + 1 :=
  ⟨Rat.floor_le x, by linarith [@Rat.lt_floor x]⟩

/-- `fround` moves a value by at most one half (R84). -/
theorem roundBy_error (rule : TieRule) (x : Rat) : |(roundBy rule x : Rat) - x| ≤ 1 / 2 := by
  obtain ⟨h₁, h₂⟩ := floor_bounds x
  rw [abs_le]
  cases rule <;> simp only [roundBy, roundTiesAway, roundTiesEven] <;> split_ifs <;> push_cast <;>
    constructor <;> linarith

/-- `fround` of an integer is that integer. -/
theorem roundBy_int (rule : TieRule) (i : Int) : roundBy rule (i : Rat) = i := by
  have h := abs_le.1 (roundBy_error rule (i : Rat))
  have h₁ : (roundBy rule (i : Rat) : Rat) < i + 1 := by linarith [h.2]
  have h₂ : (i : Rat) - 1 < roundBy rule (i : Rat) := by linarith [h.1]
  have h₃ : roundBy rule (i : Rat) < i + 1 := by exact_mod_cast h₁
  have h₄ : i - 1 < roundBy rule (i : Rat) := by exact_mod_cast h₂
  omega

/-- `fround` does not pass an integer: what is nearer than one half beyond a bound rounds to within it. -/
theorem roundBy_le (rule : TieRule) {x : Rat} {i : Int} (h : x < i + 1 / 2) : roundBy rule x ≤ i := by
  have := (abs_le.1 (roundBy_error rule x)).2
  have h₁ : (roundBy rule x : Rat) < i + 1 := by linarith
  have h₂ : roundBy rule x < i + 1 := by exact_mod_cast h₁
  omega

theorem le_roundBy (rule : TieRule) {x : Rat} {i : Int} (h : (i : Rat) - 1 / 2 < x) : i ≤ roundBy rule x := by
  have := (abs_le.1 (roundBy_error rule x)).1
  have h₁ : (i : Rat) - 1 < roundBy rule x := by linarith
  have h₂ : i - 1 < roundBy rule x := by exact_mod_cast h₁
  omega

/-! ### The exponent and the spacing of a binary64 value -/

theorem pow2_eq (e : Int) : pow2 e = (2 : Rat) ^ e := by
  cases e with
  | ofNat n => simp [pow2]
  | negSucc n =>
    rw [pow2, zpow_negSucc, Rat.mkRat_eq_div]
    push_cast
    rw [one_div]

theorem pow2_pos (e : Int) : 0 < pow2 e := by
  rw [pow2_eq]; positivity

/-- `exponentOf` is the binary exponent. -/
theorem exponentOf_spec {q : Rat} (hq : q ≠ 0) :
    (2 : Rat) ^ exponentOf q ≤ |q| ∧ |q| < (2 : Rat) ^ (exponentOf q + 1) := by
  have hn : q.num.natAbs ≠ 0 := by simpa using hq
  have hd : q.den ≠ 0 := q.den_nz
  have hdq : (0 : Rat) < (q.den : Rat) := by exact_mod_cast Nat.pos_of_ne_zero hd
  have habs : |q| = (q.num.natAbs : Rat) / (q.den : Rat) := by
    conv_lhs => rw [← Rat.num_div_den q]
    rw [abs_div, Nat.abs_cast, Nat.cast_natAbs, Int.cast_abs]
  have n₁ : ((2 : Rat) ^ (q.num.natAbs.log2 : Int)) ≤ (q.num.natAbs : Rat) := by
    rw [zpow_natCast]; exact_mod_cast Nat.log2_self_le hn
  have n₂ : (q.num.natAbs : Rat) < (2 : Rat) ^ ((q.num.natAbs.log2 : Int) + 1) := by
    have : q.num.natAbs < 2 ^ (q.num.natAbs.log2 + 1) := Nat.lt_log2_self
    rw [show ((q.num.natAbs.log2 : Int) + 1) = ((q.num.natAbs.log2 + 1 : Nat) : Int) by push_cast; rfl, zpow_natCast]
    exact_mod_cast this
  have d₁ : ((2 : Rat) ^ (q.den.log2 : Int)) ≤ (q.den : Rat) := by
    rw [zpow_natCast]; exact_mod_cast Nat.log2_self_le hd
  have d₂ : (q.den : Rat) < (2 : Rat) ^ ((q.den.log2 : Int) + 1) := by
    have : q.den < 2 ^ (q.den.log2 + 1) := Nat.lt_log2_self
    rw [show ((q.den.log2 : Int) + 1) = ((q.den.log2 + 1 : Nat) : Int) by push_cast; rfl, zpow_natCast]
    exact_mod_cast this
  have two : (2 : Rat) ≠ 0 := by norm_num
  have key : ∀ a b : Int, (q.num.natAbs : Rat) < (2 : Rat) ^ (a + 1) → (2 : Rat) ^ b ≤ (q.den : Rat) →
      |q| < (2 : Rat) ^ (a - b + 1) := by
    intro a b h₁ h₂
    rw [habs, div_lt_iff₀ hdq]
    calc (q.num.natAbs : Rat) < (2 : Rat) ^ (a + 1) := h₁
      _ = (2 : Rat) ^ (a - b + 1) * (2 : Rat) ^ b := by rw [← zpow_add₀ two]; congr 1; ring
      _ ≤ (2 : Rat) ^ (a - b + 1) * (q.den : Rat) := by gcongr
  have key' : ∀ a b : Int, (2 : Rat) ^ a ≤ (q.num.natAbs : Rat) → (q.den : Rat) < (2 : Rat) ^ (b + 1) →
      (2 : Rat) ^ (a - b - 1) ≤ |q| := by
    intro a b h₁ h₂
    rw [habs, le_div_iff₀ hdq]
    calc (2 : Rat) ^ (a - b - 1) * (q.den : Rat) ≤ (2 : Rat) ^ (a - b - 1) * (2 : Rat) ^ (b + 1) := by gcongr
      _ = (2 : Rat) ^ a := by rw [← zpow_add₀ two]; congr 1; ring
      _ ≤ _ := h₁
  have up := key _ _ n₂ d₁
  have lo := key' _ _ n₁ d₂
  simp only [exponentOf, pow2_eq]
  split
  · exact ⟨by assumption, up⟩
  · rename_i h
    exact ⟨lo, by rw [sub_add_cancel]; exact lt_of_not_ge h⟩

/-- The exponent of the spacing around `q`. -/
def ulpExponent (q : Rat) : Int := max (exponentOf q) (-1022) - 52

theorem binary64Ulp_eq (q : Rat) : binary64Ulp q = (2 : Rat) ^ ulpExponent q := pow2_eq _

theorem binary64Ulp_pos (q : Rat) : 0 < binary64Ulp q := pow2_pos _

theorem ulpExponent_ge (q : Rat) : -1074 ≤ ulpExponent q := by
  simp only [ulpExponent]; omega

/-- The spacing is 2^-52 of the value, or of the least normal value. -/
theorem binary64Ulp_le {q : Rat} (hq : q ≠ 0) :
    binary64Ulp q ≤ (2 : Rat) ^ (-52 : Int) * max |q| ((2 : Rat) ^ (-1022 : Int)) := by
  have two : (2 : Rat) ≠ 0 := by norm_num
  rw [binary64Ulp_eq, ulpExponent, sub_eq_add_neg, zpow_add₀ two, mul_comm]
  gcongr
  rcases le_total (exponentOf q) (-1022) with h | h
  · rw [max_eq_right h]; exact le_max_right _ _
  · rw [max_eq_left h]; exact le_trans (exponentOf_spec hq).1 (le_max_left _ _)

/-! ### The binary64 rounding -/

@[simp] theorem binary64Round_zero : binary64Round 0 = 0 := by simp [binary64Round]

/-- The rounded value is a multiple of the spacing, within half of it. -/
theorem binary64Round_ulp {q : Rat} (hq : q ≠ 0) :
    binary64Round q = (roundTiesEven (q / binary64Ulp q) : Rat) * binary64Ulp q ∧
    |binary64Round q - q| ≤ binary64Ulp q / 2 := by
  have hu := binary64Ulp_pos q
  have hdef : binary64Round q = (roundTiesEven (q / binary64Ulp q) : Rat) * binary64Ulp q := by
    simp [binary64Round, hq]
  refine ⟨hdef, ?_⟩
  have h := roundBy_error .tiesEven (q / binary64Ulp q)
  have hsub : binary64Round q - q = ((roundTiesEven (q / binary64Ulp q) : Rat) - q / binary64Ulp q) * binary64Ulp q := by
    rw [hdef, sub_mul, div_mul_cancel₀ _ hu.ne']
  rw [hsub, abs_mul, abs_of_pos hu]
  calc _ ≤ 1 / 2 * binary64Ulp q := by gcongr; exact h
    _ = binary64Ulp q / 2 := by ring

/-- One rounding moves a value by at most 2^-53 of it, or of the least normal value. -/
theorem binary64Round_error (q : Rat) :
    |binary64Round q - q| ≤ max |q| ((2 : Rat) ^ (-1022 : Int)) / 2 ^ 53 := by
  by_cases hq : q = 0
  · subst hq; simp only [binary64Round_zero, sub_zero, abs_zero]; positivity
  · refine le_trans (binary64Round_ulp hq).2 ?_
    have h := binary64Ulp_le hq
    have e : (2 : Rat) ^ (-52 : Int) = 1 / 2 ^ 52 := by norm_num
    rw [e] at h
    calc binary64Ulp q / 2 ≤ (1 / 2 ^ 52 * max |q| ((2 : Rat) ^ (-1022 : Int))) / 2 := by linarith
      _ = _ := by ring

/-- The relative error of one rounding of a value that is not below the least normal one. -/
theorem binary64Round_relative {q : Rat} (h : (2 : Rat) ^ (-1022 : Int) ≤ |q|) :
    |binary64Round q - q| ≤ |q| / 2 ^ 53 := by
  have := binary64Round_error q
  rwa [max_eq_left h] at this

/-- A coarse bound without a side condition. -/
theorem binary64Round_near (q : Rat) : |binary64Round q - q| ≤ (|q| + 1) / 2 ^ 53 := by
  refine le_trans (binary64Round_error q) ?_
  gcongr
  refine max_le (by linarith) (le_trans ?_ (show (1 : Rat) ≤ |q| + 1 by linarith [abs_nonneg q]))
  exact zpow_le_one_of_nonpos₀ (by norm_num) (by norm_num)

theorem binary64Round_nonneg {q : Rat} (h : 0 ≤ q) : 0 ≤ binary64Round q := by
  by_cases hq : q = 0
  · subst hq; simp
  · rw [(binary64Round_ulp hq).1]
    have hx : 0 ≤ q / binary64Ulp q := div_nonneg h (binary64Ulp_pos q).le
    have : 0 ≤ roundTiesEven (q / binary64Ulp q) :=
      le_roundBy .tiesEven (i := 0) (by push_cast; linarith)
    have : (0 : Rat) ≤ (roundTiesEven (q / binary64Ulp q) : Rat) := by exact_mod_cast this
    exact mul_nonneg this (binary64Ulp_pos q).le

/-- A value with a 53-bit significand and an exponent in range rounds to itself. -/
theorem binary64Round_exact {m e : Int} (hm : |m| < 2 ^ 53) (he : -1074 ≤ e) :
    binary64Round ((m : Rat) * (2 : Rat) ^ e) = (m : Rat) * (2 : Rat) ^ e := by
  have two : (2 : Rat) ≠ 0 := by norm_num
  by_cases hq : (m : Rat) * (2 : Rat) ^ e = 0
  · rw [hq, binary64Round_zero]
  · have hlt : |(m : Rat) * (2 : Rat) ^ e| < (2 : Rat) ^ (53 + e) := by
      rw [abs_mul, abs_of_pos (by positivity : (0 : Rat) < (2 : Rat) ^ e), zpow_add₀ two]
      have : |(m : Rat)| < (2 : Rat) ^ (53 : Int) := by
        rw [← Int.cast_abs]
        exact_mod_cast hm
      gcongr
    have hexp : exponentOf ((m : Rat) * (2 : Rat) ^ e) < 53 + e :=
      (zpow_lt_zpow_iff_right₀ (by norm_num : (1 : Rat) < 2)).1 (lt_of_le_of_lt (exponentOf_spec hq).1 hlt)
    have hE : ulpExponent ((m : Rat) * (2 : Rat) ^ e) ≤ e := by
      simp only [ulpExponent]; omega
    obtain ⟨d, hd⟩ := Int.le.dest hE
    have hdiv : (m : Rat) * (2 : Rat) ^ e / binary64Ulp ((m : Rat) * (2 : Rat) ^ e) = ((m * 2 ^ d : Int) : Rat) := by
      rw [binary64Ulp_eq, div_eq_iff (by positivity)]
      push_cast
      rw [mul_assoc]
      congr 1
      rw [← zpow_natCast, ← zpow_add₀ two]
      congr 1
      omega
    rw [(binary64Round_ulp hq).1, hdiv]
    have hr := roundBy_int .tiesEven (m * 2 ^ d)
    simp only [roundBy] at hr
    rw [hr, ← hdiv, div_mul_cancel₀ _ (binary64Ulp_pos _).ne']

end Sys2Proof.Machine
end

