-- ==== Sys2Proof/Laws/Memory.lean ====
section
/-! SUPPORT. The laws of the access primitives (20_memory.md R22 to R24): read after write, the canonical form,
and what a loop that writes its output in rising order builds. -/

namespace Sys2Proof.Machine

/-! ### The canonical form -/

theorem write_mem_address {m : Memory} {a : Nat} {b : Byte} {c : Host.Cell} (h : c ∈ m.write a b) :
    c = (a, b) ∨ c ∈ m := by
  induction m with
  | nil => simpa [Memory.write] using h
  | cons d rest ih =>
    obtain ⟨x, y⟩ := d
    simp only [Memory.write] at h
    split at h
    · simpa using h
    · split at h
      · simp only [List.mem_cons] at h ⊢
        tauto
      · simp only [List.mem_cons] at h ⊢
        rcases h with h | h
        · tauto
        · have := ih h
          tauto

/-- Writing a byte keeps the canonical form. -/
theorem write_wf {m : Memory} (h : m.wf) (a : Nat) (b : Byte) : (m.write a b).wf := by
  induction m with
  | nil => simp [Memory.write]
  | cons d rest ih =>
    obtain ⟨x, y⟩ := d
    have hx : ∀ c ∈ rest, x < c.1 := fun c hc => (List.pairwise_cons.1 h).1 c hc
    have hr := (List.pairwise_cons.1 h).2
    simp only [Memory.write]
    split
    · rename_i hlt
      refine List.pairwise_cons.2 ⟨fun c hc => ?_, h⟩
      rcases List.mem_cons.1 hc with rfl | hc
      · exact hlt
      · exact Nat.lt_trans hlt (hx c hc)
    · rename_i hlt
      split
      · rename_i heq
        subst heq
        exact List.pairwise_cons.2 ⟨hx, hr⟩
      · rename_i hne
        refine List.pairwise_cons.2 ⟨fun c hc => ?_, ih hr⟩
        rcases write_mem_address hc with rfl | hc
        · show x < a
          omega
        · exact hx c hc

/-- Writing several bytes keeps the canonical form. -/
theorem writeLE_wf {m : Memory} (h : m.wf) (a n v : Nat) : (m.writeLE a n v).wf := by
  induction n generalizing m a v with
  | zero => exact h
  | succ n ih => exact ih (write_wf h a _) _ _

/-- A `MemWrite` that answers keeps the canonical form. -/
theorem memWrite_wf {olen addr n v : Nat} {out m : Memory} (h : out.wf)
    (hw : memWrite olen out addr n v = .ok m) : m.wf := by
  simp only [memWrite] at hw
  split at hw
  · cases hw
    exact writeLE_wf h _ _ _
  · cases hw

/-- A loop whose every turn keeps the canonical form keeps it. -/
theorem forRange_wf {body : Nat → Memory → Except Fault Memory}
    (hbody : ∀ k m m', m.wf → body k m = .ok m' → m'.wf) :
    ∀ (count k : Nat) (m m' : Memory), m.wf → forRange count k body m = .ok m' → m'.wf := by
  intro count
  induction count with
  | zero => intro k m m' h he; cases he; exact h
  | succ count ih =>
    intro k m m' h he
    simp only [forRange] at he
    split at he
    · rename_i out' hb
      exact ih _ _ _ (hbody _ _ _ h hb) he
    · cases he

/-! ### Read after write -/

/-- A write to an offset is what that offset then reads as. -/
theorem read_write_same (m : Memory) (a : Nat) (b : Byte) : (m.write a b).read a = some b := by
  induction m with
  | nil => simp [Memory.write, Memory.read]
  | cons d rest ih =>
    obtain ⟨x, y⟩ := d
    simp only [Memory.write]
    split
    · simp [Memory.read]
    · split
      · simp [Memory.read]
      · rename_i h
        simp [Memory.read, Ne.symm h, ih]

/-- A write leaves every other offset alone. -/
theorem read_write_other {m : Memory} {a a' : Nat} (b : Byte) (h : a' ≠ a) :
    (m.write a b).read a' = m.read a' := by
  induction m with
  | nil => simp [Memory.write, Memory.read, Ne.symm h]
  | cons d rest ih =>
    obtain ⟨x, y⟩ := d
    simp only [Memory.write]
    split
    · simp [Memory.read, Ne.symm h]
    · split
      · rename_i hax
        subst hax
        simp [Memory.read, Ne.symm h]
      · simp only [Memory.read, ih]

/-- Writing several bytes leaves every offset outside them alone. -/
theorem read_writeLE_other {m : Memory} {a n v a' : Nat} (h : a' < a ∨ a + n ≤ a') :
    (m.writeLE a n v).read a' = m.read a' := by
  induction n generalizing m a v with
  | zero => rfl
  | succ n ih =>
    simp only [Memory.writeLE]
    rw [ih (by omega), read_write_other _ (by omega)]

/-! ### Output written in rising order -/

/-- The space that holds a run of bytes from an offset on. -/
def cellsFrom (a : Nat) (bs : List Byte) : Memory :=
  match bs with
  | [] => []
  | b :: rest => (a, b) :: cellsFrom (a + 1) rest

@[simp] theorem bytes_cellsFrom (a : Nat) (bs : List Byte) : (cellsFrom a bs).bytes = bs := by
  induction bs generalizing a with
  | nil => rfl
  | cons b rest ih => simpa [cellsFrom, Memory.bytes] using ih (a + 1)

/-- Writing the byte after a run makes the run one longer. -/
theorem write_cellsFrom_end (a : Nat) (bs : List Byte) (b : Byte) :
    (cellsFrom a bs).write (a + bs.length) b = cellsFrom a (bs ++ [b]) := by
  induction bs generalizing a with
  | nil => simp [cellsFrom, Memory.write]
  | cons c rest ih =>
    have h : a + (c :: rest).length = (a + 1) + rest.length := by simp; omega
    simp only [cellsFrom, Memory.write, List.cons_append]
    rw [if_neg (by simp), if_neg (by simp), h, ih]

/-- A one-byte `MemWrite` after a run. -/
theorem memWrite_one_end {olen : Nat} {bs : List Byte} {v : Nat} (h : bs.length + 1 ≤ olen) :
    memWrite olen (cellsFrom 0 bs) bs.length 1 v = .ok (cellsFrom 0 (bs ++ [BitVec.ofNat 8 v])) := by
  have := write_cellsFrom_end 0 bs (BitVec.ofNat 8 v)
  rw [Nat.zero_add] at this
  simp [memWrite, Memory.writeLE, h, this]

/-- A two-byte `MemWrite` after a run. -/
theorem memWrite_two_end {olen : Nat} {bs : List Byte} {v : Nat} (h : bs.length + 2 ≤ olen) :
    memWrite olen (cellsFrom 0 bs) bs.length 2 v =
      .ok (cellsFrom 0 (bs ++ [BitVec.ofNat 8 v, BitVec.ofNat 8 (v / 256)])) := by
  have h₁ := write_cellsFrom_end 0 bs (BitVec.ofNat 8 v)
  have h₂ := write_cellsFrom_end 0 (bs ++ [BitVec.ofNat 8 v]) (BitVec.ofNat 8 (v / 256))
  simp only [Nat.zero_add, List.length_append, List.length_cons, List.length_nil] at h₁ h₂
  simp [memWrite, Memory.writeLE, h, h₁, h₂]

/-- The turns of a loop that append the `w` bytes `out k` each build the outputs one after the other. -/
theorem forRange_turns {body : Nat → Memory → Except Fault Memory} {out : Nat → List Byte} {w n : Nat}
    (hlen : ∀ k < n, (out k).length = w)
    (hbody : ∀ k < n, ∀ bs : List Byte, bs.length = w * k →
      body k (cellsFrom 0 bs) = .ok (cellsFrom 0 (bs ++ out k))) (more : Nat) :
    forRange (n + more) 0 body [] = forRange more n body (cellsFrom 0 ((List.range n).flatMap out)) := by
  have main : ∀ (count k : Nat) (bs : List Byte), k + count = n → bs.length = w * k →
      forRange (count + more) k body (cellsFrom 0 bs) =
        forRange more n body (cellsFrom 0 (bs ++ (List.range' k count).flatMap out)) := by
    intro count
    induction count with
    | zero => intro k bs hk _; simp at hk; simp [hk]
    | succ count ih =>
      intro k bs hk hbs
      simp only [Nat.succ_add, forRange, hbody k (by omega) bs hbs]
      rw [ih (k + 1) (bs ++ out k) (by omega) (by simp [hbs, hlen k (by omega), Nat.mul_succ])]
      simp [List.range'_succ]
  have := main n 0 [] (by omega) (by simp)
  simpa [cellsFrom, List.range_eq_range'] using this

/-- A loop all of whose turns succeed. -/
theorem forRange_cellsFrom {body : Nat → Memory → Except Fault Memory} {out : Nat → List Byte} {w n : Nat}
    (hlen : ∀ k < n, (out k).length = w)
    (hbody : ∀ k < n, ∀ bs : List Byte, bs.length = w * k →
      body k (cellsFrom 0 bs) = .ok (cellsFrom 0 (bs ++ out k))) :
    forRange n 0 body [] = .ok (cellsFrom 0 ((List.range n).flatMap out)) :=
  forRange_turns hlen hbody 0

/-- A loop stops at its first faulting turn, with that fault. -/
theorem forRange_fault {body : Nat → Memory → Except Fault Memory} {out : Nat → List Byte} {w n j : Nat} {f : Fault}
    (hlen : ∀ k < j, (out k).length = w)
    (hbody : ∀ k < j, ∀ bs : List Byte, bs.length = w * k →
      body k (cellsFrom 0 bs) = .ok (cellsFrom 0 (bs ++ out k)))
    (hj : j < n) (hf : ∀ m, body j m = .error f) :
    forRange n 0 body [] = .error f := by
  obtain ⟨more, rfl⟩ := Nat.exists_eq_add_of_lt hj
  rw [Nat.add_assoc, forRange_turns hlen hbody (more + 1)]
  simp only [forRange, hf]

/-! ### Reading -/

/-- A one-byte `MemRead` inside the buffer. -/
theorem memRead_one {data : List Byte} {a : Nat} (h : a < data.length) :
    memRead data a 1 = .ok data[a].toNat := by
  simp [memRead, readLE, List.getElem?_eq_getElem h]

/-- A two-byte `MemRead` inside the buffer. -/
theorem memRead_two {data : List Byte} {a : Nat} (h : a + 1 < data.length) :
    memRead data a 2 = .ok (data[a].toNat + 256 * data[a + 1].toNat) := by
  simp [memRead, readLE, List.getElem?_eq_getElem h,
    List.getElem?_eq_getElem (show a < data.length by omega)]

/-- The only fault of reading a sample is the guard of `MemRead`, and only outside the buffer. -/
theorem sampleAt_error {data : List Byte} {k : Nat} {f : Fault} (h : sampleAt data k = .error f) :
    data.length ≤ 2 * k + 1 := by
  by_contra hk
  have := memRead_two (data := data) (a := 2 * k) (by omega)
  simp [sampleAt, this] at h

end Sys2Proof.Machine
end

