-- ==== Sys2Proof/Laws/Operands.lean ====
section
/-! SUPPORT. The conversions between patterns and integers (00_scope.md 5.2) against two's complement, and the
samples of a buffer (20_memory.md R24). -/

namespace Sys2Proof.Machine

/-- `sext_16` is two's complement. -/
theorem sext16_toNat (w : Word) : sext16 w.toNat = w.toInt := by
  have := w.isLt
  simp only [sext16, BitVec.toInt]
  split <;> split <;> omega

@[simp] theorem sampleOperand_eq (w : Word) : sampleOperand w = w.toInt := sext16_toNat w

/-- Every operand of an encoder is in the range of a sample (R40). -/
theorem sample_range (w : Word) : -32768 ≤ w.toInt ∧ w.toInt ≤ 32767 := by
  have h₁ := w.le_two_mul_toInt
  have h₂ := w.two_mul_toInt_lt
  constructor <;> omega

/-- `tc16` is the inverse of `sext_16` on the range of a sample. -/
theorem toInt_tc16 {x : Int} (h₁ : -32768 ≤ x) (h₂ : x ≤ 32767) : (tc16 x).toInt = x := by
  simp only [tc16, BitVec.toInt_ofInt, Int.bmod]
  omega

@[simp] theorem tc16_toInt (w : Word) : tc16 w.toInt = w := BitVec.ofInt_toInt

/-- The two bytes of a pattern, low byte first (R23, R25). -/
def sampleBytes (w : Word) : List Byte := [w.extractLsb' 0 8, w.extractLsb' 8 8]

@[simp] theorem sampleBytes_length (w : Word) : (sampleBytes w).length = 2 := rfl

theorem ofNat_low (w : Word) : BitVec.ofNat 8 w.toNat = w.extractLsb' 0 8 := by
  apply BitVec.eq_of_toNat_eq
  simp

theorem ofNat_high (w : Word) : BitVec.ofNat 8 (w.toNat / 256) = w.extractLsb' 8 8 := by
  apply BitVec.eq_of_toNat_eq
  simp [Nat.shiftRight_eq_div_pow]

theorem append_halves (w : Word) : (w.extractLsb' 8 8 ++ w.extractLsb' 0 8 : BitVec 16) = w := by
  apply BitVec.eq_of_toNat_eq
  have := w.isLt
  simp only [BitVec.toNat_append, BitVec.extractLsb'_toNat, Nat.shiftRight_eq_div_pow]
  rw [← Nat.shiftLeft_add_eq_or_of_lt (by omega), Nat.shiftLeft_eq]
  omega

theorem toNat_append_bytes (hi lo : Byte) : (hi ++ lo : BitVec 16).toNat = lo.toNat + 256 * hi.toNat := by
  have := lo.isLt
  rw [BitVec.toNat_append, ← Nat.shiftLeft_add_eq_or_of_lt this, Nat.shiftLeft_eq]
  omega

/-- Sample `k` of a buffer that holds it (R24). -/
theorem sampleAt_eq {data : List Byte} {k : Nat} (h : 2 * k + 1 < data.length) :
    sampleAt data k = .ok (pcmSample data k) := by
  have h' : 2 * k < data.length := by omega
  simp only [sampleAt, memRead_two h, pcmSample, List.getD_eq_getElem?_getD, List.getElem?_eq_getElem h,
    List.getElem?_eq_getElem h', Option.getD_some]
  rw [← sext16_toNat, toNat_append_bytes]

/-- Every sample of a buffer is in the range of a sample. -/
theorem pcmSample_range (data : List Byte) (k : Nat) :
    -32768 ≤ pcmSample data k ∧ pcmSample data k ≤ 32767 := sample_range _

/-- The samples of a buffer written sample by sample. -/
theorem pcmSample_flatMap {w : Nat → Word} {m k : Nat} (h : k < m) :
    pcmSample ((List.range m).flatMap (fun j => sampleBytes (w j))) k = (w k).toInt := by
  have get : ∀ (ws : List Word) (k : Nat) (h : k < ws.length),
      (ws.flatMap sampleBytes).getD (2 * k) 0 = (ws[k]).extractLsb' 0 8 ∧
      (ws.flatMap sampleBytes).getD (2 * k + 1) 0 = (ws[k]).extractLsb' 8 8 := by
    intro ws
    induction ws with
    | nil => intro k h; simp at h
    | cons v rest ih =>
      intro k h
      cases k with
      | zero => simp [sampleBytes]
      | succ k =>
        have := ih k (by simpa using h)
        simpa [List.flatMap_cons, sampleBytes, Nat.mul_succ] using this
  have hm : (List.range m).flatMap (fun j => sampleBytes (w j)) = ((List.range m).map w).flatMap sampleBytes := by
    simp [List.flatMap_map]
  obtain ⟨hlo, hhi⟩ := get ((List.range m).map w) k (by simpa using h)
  simp only [List.getElem_map, List.getElem_range] at hlo hhi
  rw [pcmSample, hm, hlo, hhi, append_halves]

/-- The length of a buffer written sample by sample. -/
theorem length_flatMap_sampleBytes {α : Type} (l : List α) (w : α → Word) :
    (l.flatMap (fun j => sampleBytes (w j))).length = 2 * l.length := by
  induction l with
  | nil => rfl
  | cons a rest ih => simp [ih]; omega

end Sys2Proof.Machine
end

