-- ==== Sys2Proof/Laws/State.lean ====
section
/-! SUPPORT. One lemma per field per update of the machine state, so that no proof unfolds a record update. -/

namespace Sys2Proof.Machine

@[simp] theorem give_params (s : State) (resp : Response) : (s.give resp).params = s.params := rfl
@[simp] theorem give_busy (s : State) (resp : Response) : (s.give resp).busy = .idle := rfl
@[simp] theorem give_responses (s : State) (resp : Response) :
    (s.give resp).responses = s.responses ++ [resp] := rfl
@[simp] theorem give_program (s : State) (resp : Response) : (s.give resp).program = s.program := rfl

@[simp] theorem served_params (s : State) (resp : Response) : (served s resp).params = s.params := rfl
@[simp] theorem served_busy (s : State) (resp : Response) : (served s resp).busy = .idle := rfl
@[simp] theorem served_responses (s : State) (resp : Response) :
    (served s resp).responses = s.responses ++ [resp] := rfl
@[simp] theorem served_program (s : State) (resp : Response) : (served s resp).program = s.program := rfl

@[simp] theorem serving_params (s : State) (r : Request) : (serving s r).params = s.params := rfl
@[simp] theorem serving_busy (s : State) (r : Request) : (serving s r).busy = .serving r := rfl
@[simp] theorem serving_responses (s : State) (r : Request) : (serving s r).responses = s.responses := rfl
@[simp] theorem serving_program (s : State) (r : Request) : (serving s r).program = s.program := rfl

@[simp] theorem resetBlock_params (s : State) : s.resetBlock.params = s.params := rfl
@[simp] theorem resetBlock_busy (s : State) : s.resetBlock.busy = .idle := rfl
@[simp] theorem resetBlock_responses (s : State) : s.resetBlock.responses = s.responses := rfl
@[simp] theorem resetBlock_program (s : State) : s.resetBlock.program = s.program := rfl

@[simp] theorem withFetchWord_params (s : State) (nbits w : Nat) :
    (s.withFetchWord nbits w).params = s.params := rfl
@[simp] theorem withFetchWord_busy (s : State) (nbits w : Nat) :
    (s.withFetchWord nbits w).busy = .serving (tableRequest nbits w) := rfl
@[simp] theorem withFetchWord_responses (s : State) (nbits w : Nat) :
    (s.withFetchWord nbits w).responses = s.responses := rfl
@[simp] theorem withFetchWord_program (s : State) (nbits w : Nat) :
    (s.withFetchWord nbits w).program = s.program := rfl

/-- Giving a response is the transition the claims call `served`. -/
theorem give_eq_served (s : State) (resp : Response) : s.give resp = served s resp := rfl

/-- Serving again what is being served changes nothing. -/
theorem serving_of_busy {s : State} {r : Request} (h : s.busy = .serving r) : serving s r = s := by
  cases s; cases h; rfl

/-- The response just given can be read off the state. -/
theorem served_injective {s : State} {a b : Response} : served s a = served s b ↔ a = b := by
  simp [served]

/-- What the request in flight was does not show in the state after its response. -/
@[simp] theorem served_serving (s : State) (r : Request) (resp : Response) :
    served (serving s r) resp = served s resp := rfl

end Sys2Proof.Machine
end

