-- ==== Sys2Proof/Laws/Buffer.lean ====
section
/-! SUPPORT. The loops of the buffer operations and of the resampler in closed form: each output element a
function of its own index, in order (41_codec_buffer.md R70, 42_resampler.md R88). -/

namespace Sys2Proof.Machine

theorem returnOut_cells (olen : Nat) (bs : List Byte) (s : State) :
    returnOut olen (.ok (cellsFrom 0 bs)) s = returnBuffer olen bs s := by
  simp [returnOut]

/-- A PCM-consuming operation on an odd length (R101). -/
theorem compressBuffer_odd {f : Int → Byte} {data : List Byte} (h : data.length % 2 = 1) (s : State) :
    compressBuffer f data s = raiseInvalidBufferLength s := by
  simp [compressBuffer, h]

/-- A PCM-consuming operation on an even length: the map over the samples (R71, R73). -/
theorem compressBuffer_even {f : Int → Byte} {data : List Byte} (h : data.length % 2 = 0) (s : State) :
    compressBuffer f data s =
      returnBuffer (data.length / 2) ((List.range (data.length / 2)).map (fun k => f (pcmSample data k))) s := by
  have hloop : forRange (data.length / 2) 0 (compressStep f data (data.length / 2)) [] =
      .ok (cellsFrom 0 ((List.range (data.length / 2)).flatMap (fun k => [f (pcmSample data k)]))) := by
    refine forRange_cellsFrom (w := 1) (fun _ _ => rfl) (fun k hk bs hbs => ?_)
    have hw := memWrite_one_end (olen := data.length / 2) (bs := bs) (v := (f (pcmSample data k)).toNat) (by omega)
    rw [Nat.one_mul] at hbs
    rw [hbs] at hw
    simp [compressStep, sampleAt_eq (show 2 * k + 1 < data.length by omega), hw]
  simp only [compressBuffer, h]
  rw [if_neg (by simp), hloop, returnOut_cells, ← List.map_eq_flatMap]

/-- A code-consuming operation whose output fits: the map over the codes (R72, R74). -/
theorem expandBuffer_fits {f : Byte → Int} {data : List Byte} {s : State}
    (h : withinLenMax s.params.lenMax (2 * data.length) = true) :
    expandBuffer f data s =
      returnBuffer (2 * data.length) (data.flatMap (fun c => sampleBytes (tc16 (f c)))) s := by
  have hloop : forRange data.length 0 (expandStep f data (2 * data.length)) [] =
      .ok (cellsFrom 0 ((List.range data.length).flatMap (fun k => sampleBytes (tc16 (f (data.getD k 0)))))) := by
    refine forRange_cellsFrom (w := 2) (fun _ _ => rfl) (fun k hk bs hbs => ?_)
    have hw := memWrite_two_end (olen := 2 * data.length) (bs := bs)
      (v := (tc16 (f (data.getD k 0))).toNat) (by omega)
    rw [hbs, ofNat_low, ofNat_high] at hw
    have hget : data.getD k 0 = data[k] := by simp [List.getD_eq_getElem?_getD, hk]
    simp only [expandStep, memRead_one hk, BitVec.ofNat_toNat, BitVec.setWidth_eq]
    rw [hget] at hw ⊢
    exact hw
  have hmap : (List.range data.length).flatMap (fun k => sampleBytes (tc16 (f (data.getD k 0)))) =
      data.flatMap (fun c => sampleBytes (tc16 (f c))) := by
    have : data = (List.range data.length).map (fun k => data.getD k 0) := by
      refine List.ext_getElem (by simp) (fun i hi _ => ?_)
      simp [hi]
    conv_rhs => rw [this, List.flatMap_map]
  simp only [expandBuffer, h]
  rw [if_neg (by simp), hloop, returnOut_cells, hmap]

/-- A code-consuming operation whose output does not fit (30_encoding.md R53). -/
theorem expandBuffer_refused {f : Byte → Int} {data : List Byte} {s : State}
    (h : withinLenMax s.params.lenMax (2 * data.length) = false) :
    expandBuffer f data s = .refused .lengthOutOfRange := by
  simp [expandBuffer, h]

/-- One turn of the resampler's loop at the end of the output written so far (R88). -/
theorem resampleStep_ok {A : Arith} {data : List Byte} {n olen k : Nat} {ratio : A.F} {y : Int} {bs : List Byte}
    (hy : resampleSample A data n ratio k = .ok y) (hbs : bs.length = 2 * k) (hk : 2 * k + 2 ≤ olen) :
    resampleStep A data n ratio olen k (cellsFrom 0 bs) = .ok (cellsFrom 0 (bs ++ sampleBytes (tc16 y))) := by
  have hw := memWrite_two_end (olen := olen) (bs := bs) (v := (tc16 y).toNat) (by omega)
  rw [hbs, ofNat_low, ofNat_high] at hw
  simp only [resampleStep, hy]
  exact hw

/-- The resampler's loop when every output sample is defined (R88). -/
theorem resampleWith_fits {A : Arith} {inRate outRate : Rate} {data : List Byte} {s : State} {y : Nat → Int}
    (hfit : withinLenMax s.params.lenMax
      (2 * outputCount A (data.length / 2) (resampleRatio A inRate outRate)) = true)
    (hy : ∀ k < outputCount A (data.length / 2) (resampleRatio A inRate outRate),
      resampleSample A data (data.length / 2) (resampleRatio A inRate outRate) k = .ok (y k)) :
    resampleWith A inRate outRate data s =
      returnBuffer (2 * outputCount A (data.length / 2) (resampleRatio A inRate outRate))
        ((List.range (outputCount A (data.length / 2) (resampleRatio A inRate outRate))).flatMap
          (fun k => sampleBytes (tc16 (y k)))) s := by
  have hloop := forRange_cellsFrom (w := 2)
    (body := resampleStep A data (data.length / 2) (resampleRatio A inRate outRate)
      (2 * outputCount A (data.length / 2) (resampleRatio A inRate outRate)))
    (out := fun k => sampleBytes (tc16 (y k))) (fun _ _ => rfl)
    (fun k hk bs hbs => resampleStep_ok (hy k hk) hbs (by omega))
  simp only [resampleWith, hfit]
  rw [if_neg (by simp), hloop, returnOut_cells]

/-- The resampler's loop ends at the first output sample that faults, with its fault (R88). -/
theorem resampleWith_fault {A : Arith} {inRate outRate : Rate} {data : List Byte} {s : State} {y : Nat → Int}
    {j : Nat} {f : Fault}
    (hfit : withinLenMax s.params.lenMax
      (2 * outputCount A (data.length / 2) (resampleRatio A inRate outRate)) = true)
    (hj : j < outputCount A (data.length / 2) (resampleRatio A inRate outRate))
    (hy : ∀ k < j, resampleSample A data (data.length / 2) (resampleRatio A inRate outRate) k = .ok (y k))
    (hf : resampleSample A data (data.length / 2) (resampleRatio A inRate outRate) j = .error f) :
    resampleWith A inRate outRate data s = .fault f := by
  have hloop := forRange_fault (w := 2) (f := f)
    (body := resampleStep A data (data.length / 2) (resampleRatio A inRate outRate)
      (2 * outputCount A (data.length / 2) (resampleRatio A inRate outRate)))
    (out := fun k => sampleBytes (tc16 (y k))) (fun _ _ => rfl)
    (fun k hk bs hbs => resampleStep_ok (hy k hk) hbs (by omega)) hj
    (fun m => by simp only [resampleStep, hf])
  simp only [resampleWith, hfit]
  rw [if_neg (by simp), hloop]
  rfl

end Sys2Proof.Machine
end

