-- ==== Sys2Proof/Laws/Decode.lean ====
section
/-! SUPPORT. The decoder through the fields of a header (30_encoding.md R44, R48): which row a header matches, and
what an accepted request was checked for (R49). -/

namespace Sys2Proof

/-- A mask of leading ones keeps the bits from `k` up. -/
theorem and_mask {mask : Header} {k : Nat} (h : ∀ i < 32, mask.getLsbD i = decide (k ≤ i)) (x : Header) :
    (x &&& mask).toNat = x.toNat / 2 ^ k * 2 ^ k := by
  have : x &&& mask = (x >>> k) <<< k := by
    apply BitVec.eq_of_getLsbD_eq
    intro i hi
    simp only [BitVec.getLsbD_and, h i hi, BitVec.getLsbD_shiftLeft, BitVec.getLsbD_ushiftRight, hi, decide_true,
      Bool.true_and]
    by_cases hk : k ≤ i
    · simp [hk, Nat.not_lt.2 hk, Nat.add_sub_cancel' hk]
    · simp [hk, Nat.lt_of_not_le hk]
  rw [this, BitVec.toNat_shiftLeft, BitVec.toNat_ushiftRight, Nat.shiftRight_eq_div_pow, Nat.shiftLeft_eq]
  exact Nat.mod_eq_of_lt (lt_of_le_of_lt (Nat.div_mul_le_self _ _) x.isLt)

/-- A row that fixes the bits from `k` up is matched by those bits alone. -/
theorem rowMatches_iff {op : Op} {pattern mask : Header} {k : Nat}
    (h : ∀ i < 32, mask.getLsbD i = decide (k ≤ i)) (x : Header) :
    rowMatches x ⟨op, pattern, mask⟩ = decide (x.toNat / 2 ^ k * 2 ^ k = pattern.toNat) := by
  simp only [rowMatches, ← and_mask h x, BitVec.toNat_inj]
  rfl

/-- A header as a number. -/
theorem header_toNat (op : BitVec 4) (zero : BitVec 12) (a : Word) :
    (op ++ (zero ++ a) : Header).toNat = op.toNat * 2 ^ 28 + zero.toNat * 2 ^ 16 + a.toNat := by
  have hz : (zero ++ a).toNat = zero.toNat * 2 ^ 16 + a.toNat := by
    rw [BitVec.toNat_append, ← Nat.shiftLeft_add_eq_or_of_lt a.isLt, Nat.shiftLeft_eq]
  rw [BitVec.toNat_append, ← Nat.shiftLeft_add_eq_or_of_lt (zero ++ a).isLt, hz, Nat.shiftLeft_eq]
  omega

/-- Every header is its three fields. -/
theorem header_split (req : Header) : headerOp req ++ (headerZero req ++ headerA req) = req := by
  apply BitVec.eq_of_toNat_eq
  have := req.isLt
  rw [header_toNat]
  simp only [headerOp, headerZero, headerA, BitVec.extractLsb'_toNat, Nat.shiftRight_eq_div_pow]
  omega

theorem headerOp_append (op : BitVec 4) (zero : BitVec 12) (a : Word) :
    headerOp (op ++ (zero ++ a)) = op := by
  apply BitVec.eq_of_toNat_eq
  have h₁ := op.isLt; have h₂ := zero.isLt; have h₃ := a.isLt
  simp only [headerOp, BitVec.extractLsb'_toNat, Nat.shiftRight_eq_div_pow, header_toNat]
  omega

theorem headerZero_append (op : BitVec 4) (zero : BitVec 12) (a : Word) :
    headerZero (op ++ (zero ++ a)) = zero := by
  apply BitVec.eq_of_toNat_eq
  have h₁ := op.isLt; have h₂ := zero.isLt; have h₃ := a.isLt
  simp only [headerZero, BitVec.extractLsb'_toNat, Nat.shiftRight_eq_div_pow, header_toNat]
  omega

theorem headerA_append (op : BitVec 4) (zero : BitVec 12) (a : Word) :
    headerA (op ++ (zero ++ a)) = a := by
  apply BitVec.eq_of_toNat_eq
  have h₁ := op.isLt; have h₂ := zero.isLt; have h₃ := a.isLt
  simp only [headerA, BitVec.extractLsb'_toNat, Nat.shiftRight_eq_div_pow, header_toNat]
  omega

/-- The row a header matches, from its fields (R48). -/
theorem findOp_fields (op : BitVec 4) (zero : BitVec 12) (a : Word) :
    findOp (op ++ (zero ++ a)) =
      if zero.toNat ≠ 0 then none
      else if op.toNat = 0 then some .encodeAlaw
      else if op.toNat = 1 then (if a.toNat < 256 then some .decodeAlaw else none)
      else if op.toNat = 2 then some .encodeUlaw
      else if op.toNat = 3 then (if a.toNat < 256 then some .decodeUlaw else none)
      else if a.toNat ≠ 0 then none
      else if op.toNat = 4 then some .pcmToAlaw
      else if op.toNat = 5 then some .alawToPcm
      else if op.toNat = 6 then some .pcmToUlaw
      else if op.toNat = 7 then some .ulawToPcm
      else if op.toNat = 8 then some .resamplePcm16
      else none := by
  have h₁ := op.isLt; have h₂ := zero.isLt; have h₃ := a.isLt
  have m16 : ∀ i < 32, (0xFFFF0000#32 : Header).getLsbD i = decide (16 ≤ i) := by decide
  have m8 : ∀ i < 32, (0xFFFFFF00#32 : Header).getLsbD i = decide (8 ≤ i) := by decide
  have m0 : ∀ i < 32, (0xFFFFFFFF#32 : Header).getLsbD i = decide (0 ≤ i) := by decide
  simp only [findOp, opTable, List.find?_cons, rowMatches_iff m16, rowMatches_iff m8, rowMatches_iff m0,
    header_toNat, BitVec.toNat_ofNat]
  generalize op.toNat = o at *
  generalize zero.toNat = z at *
  generalize a.toNat = b at *
  have r16 : ∀ k < 9, ((o * 2 ^ 28 + z * 2 ^ 16 + b) / 2 ^ 16 * 2 ^ 16 = k * 2 ^ 28) = (o = k ∧ z = 0) :=
    fun k hk => propext (by omega)
  have r8 : ∀ k < 9, ((o * 2 ^ 28 + z * 2 ^ 16 + b) / 2 ^ 8 * 2 ^ 8 = k * 2 ^ 28) = (o = k ∧ z = 0 ∧ b < 256) :=
    fun k hk => propext (by omega)
  have r0 : ∀ k < 9, ((o * 2 ^ 28 + z * 2 ^ 16 + b) / 2 ^ 0 * 2 ^ 0 = k * 2 ^ 28) = (o = k ∧ z = 0 ∧ b = 0) :=
    fun k hk => propext (by omega)
  have := r16 0 (by omega); have := r8 1 (by omega); have := r16 2 (by omega); have := r8 3 (by omega)
  have := r0 4 (by omega); have := r0 5 (by omega); have := r0 6 (by omega); have := r0 7 (by omega)
  have := r0 8 (by omega)
  clear r16 r8 r0 m16 m8 m0
  norm_num only at *
  simp only [*]
  by_cases hz : z = 0
  · subst hz
    by_cases hb : b = 0
    · subst hb
      interval_cases o <;> rfl
    · by_cases hb' : b < 256
      · interval_cases o <;> simp [hb, hb']
      · interval_cases o <;> simp [hb, hb']
  · simp [hz]

/-- What an accepted request was checked for, and what it means (R49). -/
theorem decode_ok {lenMax : Option Nat} {r : Request} {i : Instr} (h : decode lenMax r = .ok i) :
    ∃ op, findOp r.req = some op ∧ unusedFieldsZero op r = true ∧ lengthInRange lenMax r = true ∧
      i = assemble op r := by
  simp only [decode] at h
  split at h
  · split at h <;> cases h
  · rename_i op hop
    split at h
    · cases h
    · split at h
      · cases h
      · rename_i h₁ h₂
        cases h
        exact ⟨op, hop, by simpa using h₁, by simpa using h₂, rfl⟩

/-- The input of an accepted request is its `DATA`, of the stated length, within `LEN_MAX` (R53). -/
theorem decode_length {lenMax : Option Nat} {r : Request} {i : Instr} (h : decode lenMax r = .ok i) :
    r.len = r.data.length ∧ withinLenMax lenMax r.data.length = true := by
  obtain ⟨op, -, -, hl, -⟩ := decode_ok h
  simp only [lengthInRange, Bool.and_eq_true, beq_iff_eq] at hl
  exact ⟨hl.1, hl.1 ▸ hl.2⟩

end Sys2Proof
end

