-- ==== Sys2Proof/Laws/Instances.lean ====
section
/-! SUPPORT. Everything a step of one instance of a system can do (60_exceptions.md R114), said once. -/

namespace Sys2Proof.Machine

/-- An instance's step gives a next system exactly when the instance itself gives a next state, and changes that
instance only. -/
theorem stepInstance_next {nInst : Nat} {sys sys' : System nInst} {i : Fin nInst} :
    stepInstance sys i = .next sys' ↔ ∃ t, step sys[i] = .next t ∧ sys' = sys.set i t := by
  cases h : step sys[i] <;> simp only [stepInstance, h] <;> simp [eq_comm]

/-- An instance's step faults exactly when the instance itself does. -/
theorem stepInstance_fault {nInst : Nat} {sys : System nInst} {i : Fin nInst} {f : Fault} :
    stepInstance sys i = .fault f ↔ step sys[i] = .fault f := by
  cases h : step sys[i] <;> simp only [stepInstance, h] <;> simp

/-- An instance's step refuses exactly when the instance itself does. -/
theorem stepInstance_refused {nInst : Nat} {sys : System nInst} {i : Fin nInst} {reason : Refusal} :
    stepInstance sys i = .refused reason ↔ step sys[i] = .refused reason := by
  cases h : step sys[i] <;> simp only [stepInstance, h] <;> simp

/-- The instances of a system right after reset share one setting of the parameters. -/
theorem systemReset_oneSetting (nInst : Nat) : (systemReset nInst).oneSetting := by
  intro i j
  simp [systemReset]

end Sys2Proof.Machine
end

