-- ==== Sys2Proof/Laws/PerInstr.lean ====
section
/-! SUPPORT. A law stated per instruction: the request of an instruction has a defined opcode, a reserved field of
zero, and the instruction's input as its data, of the stated length (30_encoding.md R48, R51, R53). -/

namespace Sys2Proof.Laws.RequestShape

/-- The shape of the request that asks for an instruction. -/
def Statement (i : Instr) : Prop :=
  (headerOp (encode i).req).toNat ≤ 8 ∧ headerZero (encode i).req = 0 ∧
  (encode i).data = i.input ∧ (encode i).len = i.input.length

/-- A request without a buffer. -/
theorem header_shape (op : BitVec 4) (a : Word) (h : op.toNat ≤ 8) :
    (headerOp (headerOf op a)).toNat ≤ 8 ∧ headerZero (headerOf op a) = 0 := by
  simp only [headerOf, headerOp_append, headerZero_append]
  exact ⟨h, rfl⟩

theorem encodeAlaw (sample : Word) : Statement (.encodeAlaw sample) :=
  ⟨(header_shape 0x0 sample (by decide)).1, (header_shape 0x0 sample (by decide)).2, rfl, rfl⟩

theorem decodeAlaw (code : Byte) : Statement (.decodeAlaw code) :=
  ⟨(header_shape 0x1 (0#8 ++ code) (by decide)).1, (header_shape 0x1 (0#8 ++ code) (by decide)).2, rfl, rfl⟩

theorem encodeUlaw (sample : Word) : Statement (.encodeUlaw sample) :=
  ⟨(header_shape 0x2 sample (by decide)).1, (header_shape 0x2 sample (by decide)).2, rfl, rfl⟩

theorem decodeUlaw (code : Byte) : Statement (.decodeUlaw code) :=
  ⟨(header_shape 0x3 (0#8 ++ code) (by decide)).1, (header_shape 0x3 (0#8 ++ code) (by decide)).2, rfl, rfl⟩

theorem pcmToAlaw (data : List Byte) : Statement (.pcmToAlaw data) :=
  ⟨(header_shape 0x4 0 (by decide)).1, (header_shape 0x4 0 (by decide)).2, rfl, rfl⟩

theorem alawToPcm (data : List Byte) : Statement (.alawToPcm data) :=
  ⟨(header_shape 0x5 0 (by decide)).1, (header_shape 0x5 0 (by decide)).2, rfl, rfl⟩

theorem pcmToUlaw (data : List Byte) : Statement (.pcmToUlaw data) :=
  ⟨(header_shape 0x6 0 (by decide)).1, (header_shape 0x6 0 (by decide)).2, rfl, rfl⟩

theorem ulawToPcm (data : List Byte) : Statement (.ulawToPcm data) :=
  ⟨(header_shape 0x7 0 (by decide)).1, (header_shape 0x7 0 (by decide)).2, rfl, rfl⟩

theorem resamplePcm16 (inRate outRate : Rate) (data : List Byte) : Statement (.resamplePcm16 inRate outRate data) :=
  ⟨(header_shape 0x8 0 (by decide)).1, (header_shape 0x8 0 (by decide)).2, rfl, rfl⟩

end Sys2Proof.Laws.RequestShape
end

