-- ==== Sys2Proof/Laws/Step.lean ====
section
/-! SUPPORT. Everything a shared operation, a meaning and a step can do, each said once. -/

namespace Sys2Proof.Machine

@[simp] theorem returnScalar_eq (r : Word) (s : State) :
    returnScalar r s = .next (served s ⟨0x00, r, 0, []⟩) := rfl

@[simp] theorem returnBuffer_eq (olen : Nat) (odata : List Byte) (s : State) :
    returnBuffer olen odata s = .next (served s ⟨0x00, 0, olen, odata⟩) := rfl

@[simp] theorem raiseInvalidBufferLength_eq (s : State) :
    raiseInvalidBufferLength s = .next (served s ⟨0x01, 0, 0, []⟩) := rfl

/-- Taking a request: nothing to take, the request in flight, or the next of the program (R124). -/
theorem fetch_cases (s : State) :
    (s.busy = .idle ∧ s.program = [] ∧ fetch s = none) ∨
    (∃ r, s.busy = .serving r ∧ fetch s = some (r, s)) ∨
    (∃ r rest, s.busy = .idle ∧ s.program = r :: rest ∧
      fetch s = some (r, { s with busy := .serving r, program := rest })) := by
  obtain ⟨params, busy, responses, program⟩ := s
  cases busy with
  | serving r => exact .inr (.inl ⟨r, rfl, rfl⟩)
  | idle =>
    cases program with
    | nil => exact .inl ⟨rfl, rfl, rfl⟩
    | cons r rest => exact .inr (.inr ⟨r, rest, rfl, rfl, rfl⟩)

/-- A step with a request in flight (R49, R124). -/
theorem step_serving (s : State) (r : Request) :
    step (serving s r) =
      match decode s.params.lenMax r with
      | .error e => .refused (refusalOf e)
      | .ok i => exec i (serving s r) := rfl

/-- A step from an idle block is a step with the host's next request in flight, or none. -/
theorem step_idle {s : State} (h : s.busy = .idle) :
    step s = match s.program with
      | [] => .next s
      | r :: rest => step (serving { s with program := rest } r) := by
  obtain ⟨params, busy, responses, program⟩ := s
  cases h
  cases program <;> rfl

/-- Everything a step can do: nothing, refuse the request it takes, or run the instruction it decodes. -/
theorem step_cases (s : State) :
    (s.busy = .idle ∧ s.program = [] ∧ step s = .next s) ∨
    (∃ r s', fetch s = some (r, s') ∧
      ((∃ e, decode s'.params.lenMax r = .error e ∧ step s = .refused (refusalOf e)) ∨
       (∃ i, decode s'.params.lenMax r = .ok i ∧ step s = exec i s'))) := by
  rcases fetch_cases s with ⟨h₁, h₂, hf⟩ | ⟨r, -, hf⟩ | ⟨r, rest, -, -, hf⟩
  · exact .inl ⟨h₁, h₂, by simp [step, hf]⟩
  all_goals
    refine .inr ⟨r, _, hf, ?_⟩
    cases hd : decode _ r with
    | error e => exact .inl ⟨e, rfl, by simp only [step, hf, hd]⟩
    | ok i => exact .inr ⟨i, rfl, by simp only [step, hf, hd]⟩

/-- A PCM-consuming operation gives one response: the error on an odd length, else one byte per sample. -/
theorem compressBuffer_cases (f : Int → Byte) (data : List Byte) (s : State) :
    (data.length % 2 = 1 ∧ compressBuffer f data s = .next (served s ⟨0x01, 0, 0, []⟩)) ∨
    (data.length % 2 = 0 ∧ compressBuffer f data s = .next (served s ⟨0x00, 0, data.length / 2,
      (List.range (data.length / 2)).map (fun k => f (pcmSample data k))⟩)) := by
  rcases Nat.mod_two_eq_zero_or_one data.length with h | h
  · exact .inr ⟨h, by rw [compressBuffer_even h, returnBuffer_eq]⟩
  · exact .inl ⟨h, by rw [compressBuffer_odd h, raiseInvalidBufferLength_eq]⟩

/-- A code-consuming operation gives one response with two bytes per code, or is refused for its length. -/
theorem expandBuffer_cases (f : Byte → Int) (data : List Byte) (s : State) :
    (withinLenMax s.params.lenMax (2 * data.length) = false ∧
      expandBuffer f data s = .refused .lengthOutOfRange) ∨
    (withinLenMax s.params.lenMax (2 * data.length) = true ∧
      expandBuffer f data s = .next (served s ⟨0x00, 0, 2 * data.length,
        data.flatMap (fun c => sampleBytes (tc16 (f c)))⟩)) := by
  cases h : withinLenMax s.params.lenMax (2 * data.length) with
  | false => exact .inl ⟨rfl, expandBuffer_refused h⟩
  | true => exact .inr ⟨rfl, by rw [expandBuffer_fits h, returnBuffer_eq]⟩

/-- One output sample of the resampler, over the samples of its input (42_resampler.md R88, R89). -/
theorem resampleSample_eq (A : Arith) (data : List Byte) (ratio : A.F) (k : Nat) :
    resampleSample A data (data.length / 2) ratio k =
      let p := A.fdiv (A.ofInt k) ratio
      let index := A.ffloor p
      let frac := A.fsub p (A.ofInt index)
      if index < 0 ∨ ((data.length / 2 : Nat) : Int) ≤ index then .error .indexOutOfRange
      else if index + 1 ≤ ((data.length / 2 : Nat) : Int) - 1 then
        narrow (interpolate A (pcmSample data index.toNat) (pcmSample data (index.toNat + 1)) frac)
      else .ok (pcmSample data index.toNat) := by
  simp only [resampleSample]
  split
  · rfl
  · split
    · rw [sampleAt_eq (by omega), sampleAt_eq (by omega)]
    · rw [sampleAt_eq (by omega)]

/-- One output sample is a sample, or one of the two faults of R88. -/
theorem resampleSample_cases (A : Arith) (data : List Byte) (ratio : A.F) (k : Nat) :
    (∃ y, resampleSample A data (data.length / 2) ratio k = .ok y ∧ -32768 ≤ y ∧ y ≤ 32767) ∨
    resampleSample A data (data.length / 2) ratio k = .error .indexOutOfRange ∨
    resampleSample A data (data.length / 2) ratio k = .error .narrowOverflow := by
  rw [resampleSample_eq]
  dsimp only
  split
  · exact .inr (.inl rfl)
  · split
    · simp only [narrow]
      split
      · exact .inr (.inr rfl)
      · exact .inl ⟨_, rfl, by omega, by omega⟩
    · exact .inl ⟨_, rfl, pcmSample_range _ _⟩

/-- The resampler's computation gives one response with two bytes per output sample, is refused for its output
length, or ends in the fault of the first output sample that has one (R88); which of these does not depend on what was served before. -/
theorem resampleWith_cases (A : Arith) (inRate outRate : Rate) (data : List Byte) (params : Params) :
    let m := outputCount A (data.length / 2) (resampleRatio A inRate outRate)
    (withinLenMax params.lenMax (2 * m) = false ∧ ∀ s : State, s.params = params →
      resampleWith A inRate outRate data s = .refused .lengthOutOfRange) ∨
    (withinLenMax params.lenMax (2 * m) = true ∧ ∃ y : Nat → Int,
      (∀ k < m, resampleSample A data (data.length / 2) (resampleRatio A inRate outRate) k = .ok (y k)) ∧
      ∀ s : State, s.params = params → resampleWith A inRate outRate data s =
        .next (served s ⟨0x00, 0, 2 * m, (List.range m).flatMap (fun k => sampleBytes (tc16 (y k)))⟩)) ∨
    (withinLenMax params.lenMax (2 * m) = true ∧ ∃ f k, (f = .indexOutOfRange ∨ f = .narrowOverflow) ∧ k < m ∧
      (∀ j < k, ∃ y, resampleSample A data (data.length / 2) (resampleRatio A inRate outRate) j = .ok y) ∧
      resampleSample A data (data.length / 2) (resampleRatio A inRate outRate) k = .error f ∧
      ∀ s : State, s.params = params → resampleWith A inRate outRate data s = .fault f) := by
  intro m
  cases hfit : withinLenMax params.lenMax (2 * m) with
  | false =>
    refine .inl ⟨rfl, fun s hs => ?_⟩
    subst hs
    simp only [m] at hfit
    simp [resampleWith, hfit]
  | true =>
    refine .inr ?_
    by_cases hall : ∀ k < m, ∃ y, resampleSample A data (data.length / 2) (resampleRatio A inRate outRate) k = .ok y
    · choose! y hy using hall
      refine .inl ⟨rfl, y, hy, fun s hs => ?_⟩
      rw [resampleWith_fits (hs ▸ hfit) hy, returnBuffer_eq]
    · -- the first output sample that is not defined
      push Not at hall
      have hex : ∃ k, k < m ∧ ∀ y,
          resampleSample A data (data.length / 2) (resampleRatio A inRate outRate) k ≠ .ok y := hall
      classical
      obtain ⟨hkm, hne⟩ := Nat.find_spec hex
      have hbefore : ∀ k < Nat.find hex, ∃ y,
          resampleSample A data (data.length / 2) (resampleRatio A inRate outRate) k = .ok y := by
        intro k hk
        by_contra hno
        exact Nat.find_min hex hk ⟨by omega, fun y hy => hno ⟨y, hy⟩⟩
      choose! y hy using hbefore
      have fault : ∀ f, resampleSample A data (data.length / 2) (resampleRatio A inRate outRate) (Nat.find hex) =
          .error f → ∀ s : State, s.params = params → resampleWith A inRate outRate data s = .fault f :=
        fun f hf s hs => resampleWith_fault (hs ▸ hfit) hkm hy hf
      rcases resampleSample_cases A data (resampleRatio A inRate outRate) (Nat.find hex) with ⟨v, hv, -⟩ | hf | hf
      · exact absurd hv (hne v)
      · exact .inr ⟨rfl, _, _, .inl rfl, hkm, fun j hj => ⟨y j, hy j hj⟩, hf, fault _ hf⟩
      · exact .inr ⟨rfl, _, _, .inr rfl, hkm, fun j hj => ⟨y j, hy j hj⟩, hf, fault _ hf⟩

end Sys2Proof.Machine
end

