-- ==== Sys2Proof/Laws/Resampler.lean ====
section
/-! SUPPORT. The resampler under an arithmetic of rationals that rounds each result (42_resampler.md R82, R87, R88),
written as rationals throughout, so that no proof looks into the configuration record. -/

namespace Sys2Proof.Machine

/-- `ratio` under a rounded arithmetic (R87). -/
theorem resampleRatio_rounded (rnd : Rat → Rat) (rule : TieRule) (inRate outRate : Rate) :
    resampleRatio (roundedArith rnd rule) inRate outRate =
      rnd (rnd (outRate.toNat : Rat) / rnd (inRate.toNat : Rat)) := by
  simp only [resampleRatio, roundedArith, Int.cast_natCast]

/-- `m` under a rounded arithmetic (R87). -/
theorem outputCount_rounded (rnd : Rat → Rat) (rule : TieRule) (n : Nat) (ratio : Rat) :
    outputCount (roundedArith rnd rule) n ratio = (rnd (rnd (n : Rat) * ratio)).floor.toNat := by
  simp only [outputCount, roundedArith, Int.cast_natCast]

/-- An interpolated value under a rounded arithmetic (R88). -/
theorem interpolate_rounded (rnd : Rat → Rat) (rule : TieRule) (x0 x1 : Int) (frac : Rat) :
    interpolate (roundedArith rnd rule) x0 x1 frac =
      roundBy rule (rnd (rnd (rnd (x0 : Rat) * rnd (rnd 1 - frac)) + rnd (rnd (x1 : Rat) * frac))) := by
  simp only [interpolate, roundedArith, Int.cast_one]

/-- One output sample under a rounded arithmetic, at a position whose index is inside the input (R88, R89). -/
theorem resampleSample_rounded (rnd : Rat → Rat) (rule : TieRule) (data : List Byte) (ratio : Rat) (k index : Nat)
    (hindex : (rnd (rnd (k : Rat) / ratio)).floor = (index : Int)) (hlt : index < data.length / 2) :
    resampleSample (roundedArith rnd rule) data (data.length / 2) ratio k =
      if index + 1 < data.length / 2 then
        narrow (interpolate (roundedArith rnd rule) (pcmSample data index) (pcmSample data (index + 1))
          (rnd (rnd (rnd (k : Rat) / ratio) - rnd (index : Rat))))
      else .ok (pcmSample data index) := by
  refine (resampleSample_eq (roundedArith rnd rule) data ratio k).trans ?_
  simp only [roundedArith, Int.cast_natCast]
  rw [hindex]
  rw [if_neg (by omega)]
  simp only [Int.toNat_natCast, Int.cast_natCast]
  by_cases h : index + 1 < data.length / 2
  · rw [if_pos (by omega), if_pos h]
  · rw [if_neg (by omega), if_neg h]

/-! ### What the roundings of binary64 can do to a position and to an interpolated value (R90) -/

theorem ratFloor_zero : Rat.floor 0 = 0 := by decide +kernel

/-- A value that is not tiny is a normal one. -/
theorem le_abs_of_le {q : Rat} (h : 1 / 2 ^ 100 ≤ q) : (2 : Rat) ^ (-1022 : Int) ≤ |q| := by
  have : (2 : Rat) ^ (-1022 : Int) ≤ 1 / 2 ^ 100 := by
    rw [show (1 : Rat) / 2 ^ 100 = (2:Rat) ^ (-100 : Int) by rw [zpow_neg]; norm_num]
    exact zpow_le_zpow_right₀ (by norm_num) (by norm_num)
  exact le_trans (le_trans this h) (le_abs_self q)

/-- One rounding of a value that is not tiny stays within 2^-53 of it. -/
theorem binary64Round_rel {q : Rat} (h : 1 / 2 ^ 100 ≤ q) :
    q * (1 - 1 / 2 ^ 53) ≤ binary64Round q ∧ binary64Round q ≤ q * (1 + 1 / 2 ^ 53) := by
  have := abs_le.1 (binary64Round_relative (le_abs_of_le h))
  have hq : |q| = q := abs_of_nonneg (le_trans (by norm_num) h)
  rw [hq] at this
  constructor <;> linarith [this.1, this.2]

/-- The first sketch of R90: a position of an output sample lies inside the input. -/
theorem binary64_position_inside {inR outR n k : Nat} (hin : 0 < inR) (hi : inR < 2 ^ 32) (ho : outR < 2 ^ 32)
    (hn : n ≤ 2 ^ 31)
    (hm : (binary64Round ((n : Rat) * binary64Round ((outR : Rat) / (inR : Rat)))).floor.toNat ≤ 2 ^ 31)
    (hk : k < (binary64Round ((n : Rat) * binary64Round ((outR : Rat) / (inR : Rat)))).floor.toNat) :
    0 ≤ binary64Round ((k : Rat) / binary64Round ((outR : Rat) / (inR : Rat))) ∧
    binary64Round ((k : Rat) / binary64Round ((outR : Rat) / (inR : Rat))) < n := by
  have hinq : (0 : Rat) < inR := by exact_mod_cast hin
  rcases Nat.eq_zero_or_pos outR with rfl | hout
  · exfalso; simp at hk; rw [ratFloor_zero] at hk; omega
  rcases Nat.eq_zero_or_pos n with rfl | hnpos
  · exfalso; simp at hk; rw [ratFloor_zero] at hk; omega
  have houtq : (1 : Rat) ≤ outR := by exact_mod_cast hout
  have hi' : (inR : Rat) ≤ 2 ^ 32 := by exact_mod_cast hi.le
  have ho' : (outR : Rat) ≤ 2 ^ 32 := by exact_mod_cast ho.le
  have hin1 : (1 : Rat) ≤ inR := by exact_mod_cast hin
  have hn1 : (1 : Rat) ≤ n := by exact_mod_cast hnpos
  have q1 : (1 : Rat) / 2 ^ 32 ≤ outR / inR := by
    rw [div_le_div_iff₀ (by norm_num) hinq]; linarith
  have q2 : (outR : Rat) / inR ≤ 2 ^ 32 := by
    rw [div_le_iff₀ hinq]; nlinarith
  obtain ⟨r1, r2⟩ := binary64Round_rel (q := (outR : Rat) / inR) (le_trans (by norm_num) q1)
  generalize hr : binary64Round ((outR : Rat) / (inR : Rat)) = r at *
  have rlo : (1 : Rat) / 2 ^ 33 ≤ r := by linarith
  have rhi : r ≤ 2 ^ 33 := by linarith
  have rpos : 0 < r := lt_of_lt_of_le (by norm_num) rlo
  have N1 : (1 : Rat) / 2 ^ 33 ≤ n * r := by nlinarith
  obtain ⟨t1, t2⟩ := binary64Round_rel (q := (n : Rat) * r) (le_trans (by norm_num) N1)
  generalize ht : binary64Round ((n : Rat) * r) = t at *
  have tpos : 0 ≤ t := by nlinarith
  have hfl := floor_bounds t
  have hfl0 : 0 ≤ t.floor := by
    have : (-1 : Rat) < (t.floor : Rat) := by linarith [hfl.2]
    have : (-1 : Int) < t.floor := by exact_mod_cast this
    omega
  have hmt : ((t.floor.toNat : Nat) : Rat) = (t.floor : Rat) := by
    have : ((t.floor.toNat : Nat) : Int) = t.floor := Int.toNat_of_nonneg hfl0
    exact_mod_cast this
  have hm' : (t.floor : Rat) ≤ 2 ^ 31 := by rw [← hmt]; exact_mod_cast hm
  have hk' : (k : Rat) + 1 ≤ t.floor := by rw [← hmt]; exact_mod_cast hk
  refine ⟨binary64Round_nonneg (by positivity), ?_⟩
  rcases Nat.eq_zero_or_pos k with rfl | hkpos
  · simp; exact hnpos
  have hk1 : (1 : Rat) ≤ k := by exact_mod_cast hkpos
  have kr : (1 : Rat) / 2 ^ 33 ≤ k / r := by
    rw [div_le_div_iff₀ (by norm_num) rpos]; linarith
  obtain ⟨-, p2⟩ := binary64Round_rel (q := (k : Rat) / r) (le_trans (by norm_num) kr)
  have hpr : binary64Round ((k : Rat) / r) * r ≤ k * (1 + 1 / 2 ^ 53) := by
    calc _ ≤ ((k : Rat) / r * (1 + 1 / 2 ^ 53)) * r := by gcongr
      _ = _ := by field_simp
  have : binary64Round ((k : Rat) / r) * r < n * r := by
    generalize (n : Rat) * r = N at *
    have hN : N ≤ 2 ^ 32 := by linarith [hfl.2]
    have hkN : (k : Rat) ≤ N * (1 + 1 / 2 ^ 53) - 1 := by linarith [hfl.1]
    linarith
  exact lt_of_mul_lt_mul_right this rpos.le

/-- The second sketch of R90: the roundings move an interpolated value by less than one quarter. -/
theorem binary64_interpolation_near {x0 x1 : Int} (h0 : -32768 ≤ x0 ∧ x0 ≤ 32767) (h1 : -32768 ≤ x1 ∧ x1 ≤ 32767)
    {δ : Rat} (d0 : 0 ≤ δ) (d1 : δ < 1) :
    |binary64Round (binary64Round ((x0 : Rat) * binary64Round (1 - binary64Round δ)) +
      binary64Round ((x1 : Rat) * binary64Round δ)) - (x0 * (1 - δ) + x1 * δ)| < 1 / 4 := by
  have a0 : |(x0 : Rat)| ≤ 32768 := by
    rw [abs_le]; constructor <;> [exact_mod_cast h0.1; exact_mod_cast (by omega : x0 ≤ 32768)]
  have a1 : |(x1 : Rat)| ≤ 32768 := by
    rw [abs_le]; constructor <;> [exact_mod_cast h1.1; exact_mod_cast (by omega : x1 ≤ 32768)]
  have dabs : |δ| ≤ 1 := by rw [abs_of_nonneg d0]; exact d1.le
  have e1 := binary64Round_near δ
  generalize binary64Round δ = f at *
  have e1' : |f - δ| ≤ 1 / 2 ^ 52 := by linarith
  have hf : |f| ≤ 2 := by
    rw [abs_le] at *; constructor <;> linarith [e1'.1, e1'.2]
  have e2 := binary64Round_near (1 - f)
  generalize binary64Round (1 - f) = w at *
  have h1f : |1 - f| ≤ 2 := by rw [abs_le] at *; constructor <;> linarith [e1'.1, e1'.2]
  have e2' : |w - (1 - f)| ≤ 1 / 2 ^ 51 := by linarith
  have hw : |w| ≤ 3 := by rw [abs_le] at *; constructor <;> linarith [e2'.1, e2'.2, h1f.1, h1f.2]
  have e3 := binary64Round_near ((x0 : Rat) * w)
  have e4 := binary64Round_near ((x1 : Rat) * f)
  have b3 : |(x0 : Rat) * w| ≤ 98304 := by rw [abs_mul]; nlinarith [abs_nonneg (x0 : Rat), abs_nonneg w]
  have b4 : |(x1 : Rat) * f| ≤ 65536 := by rw [abs_mul]; nlinarith [abs_nonneg (x1 : Rat), abs_nonneg f]
  have c3 : |(x0 : Rat) * (w - (1 - δ))| ≤ 32768 * (1 / 2 ^ 50) := by
    rw [abs_mul]
    have : |w - (1 - δ)| ≤ 1 / 2 ^ 50 := by rw [abs_le] at *; constructor <;> linarith [e1'.1, e1'.2, e2'.1, e2'.2]
    gcongr
  have c4 : |(x1 : Rat) * (f - δ)| ≤ 32768 * (1 / 2 ^ 52) := by
    rw [abs_mul]; gcongr
  replace e3 := le_trans e3 (show (|(x0 : Rat) * w| + 1) / 2 ^ 53 ≤ 1 / 1000 by rw [div_le_iff₀ (by norm_num)]; linarith)
  replace e4 := le_trans e4 (show (|(x1 : Rat) * f| + 1) / 2 ^ 53 ≤ 1 / 1000 by rw [div_le_iff₀ (by norm_num)]; linarith)
  generalize binary64Round ((x0 : Rat) * w) = a at *
  generalize binary64Round ((x1 : Rat) * f) = b at *
  have e5 := binary64Round_near (a + b)
  have hab : |a + b| ≤ 200000 := by
    rw [abs_le] at *; constructor <;> linarith [e3.1, e3.2, e4.1, e4.2, b3.1, b3.2, b4.1, b4.2]
  replace e5 := le_trans e5 (show (|a + b| + 1) / 2 ^ 53 ≤ 1 / 1000 by rw [div_le_iff₀ (by norm_num)]; linarith)
  generalize binary64Round (a + b) = v at *
  rw [mul_sub] at c3 c4
  rw [abs_lt]
  rw [abs_le] at *
  constructor <;> linarith [e3.1, e3.2, e4.1, e4.2, b3.1, b3.2, b4.1, b4.2, c3.1, c3.2, c4.1, c4.2, e5.1, e5.2, hab.1, hab.2]

/-- A value within one quarter of a point between two integers rounds to between them. -/
theorem roundBy_between (rule : TieRule) {x0 x1 : Int} {v δ : Rat} (d0 : 0 ≤ δ) (d1 : δ < 1)
    (hv : |v - (x0 * (1 - δ) + x1 * δ)| < 1 / 4) :
    between x0 x1 (roundBy rule v) := by
  rw [abs_lt] at hv
  constructor
  · apply le_roundBy
    rcases le_total x0 x1 with h | h
    · rw [min_eq_left h]; have : (x0 : Rat) ≤ x1 := by exact_mod_cast h
      nlinarith [hv.1]
    · rw [min_eq_right h]; have : (x1 : Rat) ≤ x0 := by exact_mod_cast h
      nlinarith [hv.1]
  · apply roundBy_le
    rcases le_total x0 x1 with h | h
    · rw [max_eq_right h]; have : (x0 : Rat) ≤ x1 := by exact_mod_cast h
      nlinarith [hv.2]
    · rw [max_eq_left h]; have : (x1 : Rat) ≤ x0 := by exact_mod_cast h
      nlinarith [hv.2]

end Sys2Proof.Machine
end

