-- ==== Sys2Proof/Tests/Slice0.lean ====
section
/-! SUPPORT. Tests. Expected results come from the spec: 30_encoding.md R44, R48 and R57 for words, 95_test_vectors.md
section 2 for responses, 42_resampler.md R93 for the two arithmetics. After them, for every statement of
Certificates/Slice0/Obligations.lean that has hypotheses, a concrete state and operands that meet them. -/

open Sys2Proof Sys2Proof.Machine

namespace Sys2Proof.Tests

/-- An idle machine with given parameters. -/
def machine (neg : AlawDecNeg) (num : Num) (rule : TieRule) (lenMax : Option Nat) : State :=
  { params := { alawDecNeg := neg, num := num, round := rule, lenMax := lenMax },
    busy := .idle, responses := [], program := [] }

/-- The default machine. -/
def start : State := machine .zero .binary64 .tiesAway (some 4294967295)

/-- The last response of the state a step or an operation answers. -/
def lastResponse (o : Outcome) : Option Response :=
  match o with
  | .next t => t.responses.getLast?
  | .fault _ => none
  | .refused _ => none

/-- The refusal that a step or an operation answers. -/
def refusal (o : Outcome) : Option Refusal :=
  match o with
  | .next _ => none
  | .fault _ => none
  | .refused reason => some reason

/-- The response of an operation on the default machine. -/
def run (i : Instr) : Option Response := lastResponse (exec i start)

/-- The sixteen bytes of 95_test_vectors.md section 2.6: samples 0, -1, -9, 1000, -1000, 32767, -32768, 8031. -/
def pcm : List Byte := [0x00, 0x00, 0xff, 0xff, 0xf7, 0xff, 0xe8, 0x03, 0x18, 0xfc, 0xff, 0x7f, 0x00, 0x80, 0x5f, 0x1f]

/-! ### Well-formedness: an ill-formed term for the one check, in each operation that it applies to (R53) -/

theorem test_ill_formed_pcm_to_alaw : (Instr.pcmToAlaw [0, 0]).wellFormed (some 1) = false := by decide

theorem test_ill_formed_alaw_to_pcm : (Instr.alawToPcm [0, 0]).wellFormed (some 1) = false := by decide

theorem test_ill_formed_pcm_to_ulaw : (Instr.pcmToUlaw [0, 0]).wellFormed (some 1) = false := by decide

theorem test_ill_formed_ulaw_to_pcm : (Instr.ulawToPcm [0, 0]).wellFormed (some 1) = false := by decide

theorem test_ill_formed_resample : (Instr.resamplePcm16 1 2 [0, 0]).wellFormed (some 1) = false := by decide

theorem test_well_formed_at_the_bound : (Instr.pcmToAlaw [0, 0]).wellFormed (some 2) = true := by decide

/-! ### Decoding: words written out from the fields of R44 and R48 -/

theorem test_decode_encode_alaw :
    decodeTableWord 32 0b0000_000000000000_1111110000011000 = some (.encodeAlaw 0xFC18) := by decide

theorem test_decode_decode_alaw :
    decodeTableWord 32 0b0001_000000000000_0000000011111010 = some (.decodeAlaw 0xFA) := by decide

theorem test_decode_encode_ulaw :
    decodeTableWord 32 0b0010_000000000000_1111111111111111 = some (.encodeUlaw 0xFFFF) := by decide

theorem test_decode_decode_ulaw :
    decodeTableWord 32 0b0011_000000000000_0000000001001110 = some (.decodeUlaw 0x4E) := by decide

theorem test_decode_pcm_to_alaw :
    decode (some 4) ⟨0b0100_000000000000_0000000000000000#32, 0, 0, 4, [0xe8, 0x03, 0x18, 0xfc]⟩ =
      .ok (.pcmToAlaw [0xe8, 0x03, 0x18, 0xfc]) := by decide

theorem test_decode_alaw_to_pcm :
    decode (some 4) ⟨0b0101_000000000000_0000000000000000#32, 0, 0, 2, [0xfa, 0x7a]⟩ =
      .ok (.alawToPcm [0xfa, 0x7a]) := by decide

theorem test_decode_pcm_to_ulaw :
    decode (some 4) ⟨0b0110_000000000000_0000000000000000#32, 0, 0, 4, [0xe8, 0x03, 0x18, 0xfc]⟩ =
      .ok (.pcmToUlaw [0xe8, 0x03, 0x18, 0xfc]) := by decide

theorem test_decode_ulaw_to_pcm :
    decode (some 4) ⟨0b0111_000000000000_0000000000000000#32, 0, 0, 2, [0xce, 0x4e]⟩ =
      .ok (.ulawToPcm [0xce, 0x4e]) := by decide

theorem test_decode_resample :
    decode (some 4) ⟨0b1000_000000000000_0000000000000000#32, 8000, 16000, 4, [0x00, 0x00, 0x64, 0x00]⟩ =
      .ok (.resamplePcm16 8000 16000 [0x00, 0x00, 0x64, 0x00]) := by decide

theorem test_decode_rejects_reserved_opcodes :
    decode none (headerRequest 0x90000000) = .error .reservedOpcode ∧
    decode none (headerRequest 0xF0010000) = .error .reservedOpcode := by decide

theorem test_decode_rejects_reserved_bits :
    decode none (headerRequest 0x00010000) = .error .reservedBits ∧
    decode none (headerRequest 0x10000100) = .error .reservedBits ∧
    decode none (headerRequest 0x40000001) = .error .reservedBits := by decide

theorem test_decode_rejects_unused_fields :
    decode none ⟨0x40000000, 1, 0, 0, []⟩ = .error .reservedBits ∧
    decode none ⟨0x00000000, 0, 0, 1, [0]⟩ = .error .reservedBits := by decide

theorem test_decode_rejects_lengths :
    decode none ⟨0x40000000, 0, 0, 2, [0]⟩ = .error .lengthOutOfRange ∧
    decode (some 1) ⟨0x40000000, 0, 0, 2, [0, 0]⟩ = .error .lengthOutOfRange := by decide

/-- A reserved bit goes before a wrong length (R107). -/
theorem test_decode_order : decode none ⟨0x40000001, 0, 0, 2, [0]⟩ = .error .reservedBits := by decide

theorem test_encode_words :
    (encode (.encodeAlaw 1000)).req = 0x000003E8 ∧ (encode (.decodeUlaw 0x4E)).req = 0x3000004E ∧
    encode (.resamplePcm16 8000 16000 [0, 0, 0x64, 0]) = ⟨0x80000000, 8000, 16000, 4, [0, 0, 0x64, 0]⟩ := by decide

/-! ### The operations (95_test_vectors.md section 2) -/

theorem test_segment_index_edges :
    [-1, 0, 255, 256, 511, 512, 32767, 32768, 32900].map segmentIndex = [0, 0, 0, 1, 1, 2, 7, 8, 8] := by decide

theorem test_encode_alaw_extremes :
    run (.encodeAlaw 0x8000) = some ⟨0, 0x002A, 0, []⟩ ∧ run (.encodeAlaw 0xFFF7) = some ⟨0, 0x0055, 0, []⟩ := by decide

theorem test_encode_alaw_quirk_band :
    run (.encodeAlaw 0xFFF8) = some ⟨0, 0x00D5, 0, []⟩ ∧ run (.encodeAlaw 544) = some ⟨0, 0x00F4, 0, []⟩ := by decide

theorem test_decode_alaw_zero :
    run (.decodeAlaw 0xFA) = some ⟨0, 0x03F0, 0, []⟩ ∧ run (.decodeAlaw 0x7A) = some ⟨0, 0x0000, 0, []⟩ := by decide

theorem test_decode_alaw_negate :
    lastResponse (exec (.decodeAlaw 0x2A) (machine .negate .exact .tiesAway none)) = some ⟨0, 0x8200, 0, []⟩ ∧
    lastResponse (exec (.decodeAlaw 0x3D) (machine .negate .exact .tiesAway none)) = some ⟨0, 0xCF00, 0, []⟩ := by decide

theorem test_encode_ulaw_clamp :
    run (.encodeUlaw 0x8000) = some ⟨0, 0x0000, 0, []⟩ ∧ run (.encodeUlaw 0x7FFF) = some ⟨0, 0x0080, 0, []⟩ := by decide

theorem test_encode_ulaw_small :
    run (.encodeUlaw 0xFC18) = some ⟨0, 0x004E, 0, []⟩ ∧ run (.encodeUlaw 0x1F5F) = some ⟨0, 0x00A0, 0, []⟩ := by decide

theorem test_decode_ulaw_extremes :
    run (.decodeUlaw 0x00) = some ⟨0, 0x8284, 0, []⟩ ∧ run (.decodeUlaw 0x80) = some ⟨0, 0x7D7C, 0, []⟩ := by decide

theorem test_decode_ulaw_zeros :
    run (.decodeUlaw 0xFF) = some ⟨0, 0, 0, []⟩ ∧ run (.decodeUlaw 0x7F) = some ⟨0, 0, 0, []⟩ ∧
    run (.decodeUlaw 0x17) = some ⟨0, 0xCF84, 0, []⟩ := by decide

theorem test_pcm_to_alaw :
    run (.pcmToAlaw pcm) = some ⟨0, 0, 8, [0xd5, 0xd5, 0x55, 0xfa, 0x7a, 0xaa, 0x2a, 0x8a]⟩ := by decide

theorem test_pcm_to_alaw_odd : run (.pcmToAlaw [0xe8, 0x03, 0x18]) = some ⟨1, 0, 0, []⟩ := by decide

theorem test_alaw_to_pcm :
    run (.alawToPcm [0xd5, 0x55, 0xaa]) = some ⟨0, 0, 6, [0x08, 0x00, 0x00, 0x00, 0x00, 0x7e]⟩ := by decide

theorem test_alaw_to_pcm_too_long :
    refusal (exec (.alawToPcm [0xd5, 0x55]) (machine .zero .exact .tiesAway (some 3))) = some .lengthOutOfRange := by
  decide

theorem test_pcm_to_ulaw :
    run (.pcmToUlaw pcm) = some ⟨0, 0, 8, [0xff, 0x7f, 0x7e, 0xce, 0x4e, 0x80, 0x00, 0xa0]⟩ := by decide

theorem test_pcm_to_ulaw_odd : run (.pcmToUlaw [0x00, 0x00, 0x01, 0x00, 0x02]) = some ⟨1, 0, 0, []⟩ := by decide

theorem test_ulaw_to_pcm :
    run (.ulawToPcm [0x7e, 0xce, 0x4e]) = some ⟨0, 0, 6, [0xf8, 0xff, 0xdc, 0x03, 0x24, 0xfc]⟩ := by decide

theorem test_ulaw_to_pcm_empty : run (.ulawToPcm []) = some ⟨0, 0, 0, []⟩ := by decide

/-- Samples -32768, 32767 at four times the rate: extremes, a tie at -0.5, and the tail (section 2.8). -/
theorem test_resample_extremes :
    run (.resamplePcm16 1 4 [0x00, 0x80, 0xff, 0x7f]) =
      some ⟨0, 0, 16, [0x00, 0x80, 0x00, 0xc0, 0xff, 0xff, 0xff, 0x3f, 0xff, 0x7f, 0xff, 0x7f, 0xff, 0x7f, 0xff, 0x7f]⟩ ∧
    lastResponse (exec (.resamplePcm16 1 4 [0x00, 0x80, 0xff, 0x7f])
        (machine .zero .binary64 .tiesEven (some 4294967295))) =
      some ⟨0, 0, 16, [0x00, 0x80, 0x00, 0xc0, 0x00, 0x00, 0xff, 0x3f, 0xff, 0x7f, 0xff, 0x7f, 0xff, 0x7f, 0xff, 0x7f]⟩ := by
  decide +kernel

/-- 8000 to 12000 under both arithmetics: inexact positions, rounded (section 2.8). -/
theorem test_resample_inexact :
    run (.resamplePcm16 8000 12000 [0xe8, 0x03, 0xd0, 0x07, 0xb8, 0x0b]) =
      some ⟨0, 0, 8, [0xe8, 0x03, 0x83, 0x06, 0x1d, 0x09, 0xb8, 0x0b]⟩ ∧
    lastResponse (exec (.resamplePcm16 8000 12000 [0xe8, 0x03, 0xd0, 0x07, 0xb8, 0x0b])
        (machine .zero .exact .tiesAway none)) =
      some ⟨0, 0, 8, [0xe8, 0x03, 0x83, 0x06, 0x1d, 0x09, 0xb8, 0x0b]⟩ := by decide +kernel

/-- The ratio 7/3 in binary64 is 2.3333333333333335, whose fraction has 52 bits below the point's left. -/
theorem test_binary64_round : binary64Round (7 / 3) = 5254199565265579 / 2 ^ 51 := by decide +kernel

/-- A tie goes to the even significand: 2^53 + 1 down, 2^53 + 3 up (R82). -/
theorem test_binary64_ties :
    binary64Round (2 ^ 53 + 1) = 2 ^ 53 ∧ binary64Round (2 ^ 53 + 3) = 2 ^ 53 + 4 := by decide +kernel

/-- The rows of R84. -/
theorem test_round_ties :
    [1 / 2, -1 / 2, 5 / 2, -5 / 2].map (roundBy .tiesAway) = [1, -1, 3, -3] ∧
    [1 / 2, -1 / 2, 5 / 2, 3 / 2].map (roundBy .tiesEven) = [0, 0, 2, 2] := by decide +kernel

/-! ### The step, the memory, the host's lines, the instances -/

theorem test_step_serves_a_word :
    lastResponse (step (State.reset.withFetchWord 32 0x000003E8)) = some ⟨0, 0x00FA, 0, []⟩ := by decide

theorem test_step_takes_the_program :
    lastResponse (step { State.reset with program := [headerRequest 0x2000FFFF] }) = some ⟨0, 0x007F, 0, []⟩ := by decide

theorem test_step_refuses :
    refusal (step (State.reset.withFetchWord 32 0x90000000)) = some .reservedOpcode := by decide

theorem test_core_is_the_machine : Sys2Proof.core.reset = State.reset := rfl

theorem test_memory_write_keeps_order :
    Memory.write [(0, 1), (4, 5)] 2 9 = [(0, 1), (2, 9), (4, 5)] ∧ Memory.write [(0, 1), (4, 5)] 4 9 = [(0, 1), (4, 9)] := by
  decide

theorem test_memory_is_little_endian :
    Memory.writeLE [] 4 2 0xFC18 = [(4, 0x18), (5, 0xFC)] ∧ readLE [0x00, 0x18, 0xFC] 1 2 = some 0xFC18 := by decide

theorem test_line_comment_and_expectation :
    parseLine "decode_alaw 0xFA -> R=0x03F0 ; source".toList =
      some ⟨.decodeAlaw, 0x00FA, 0, 0, .bytes [], some (.scalar 0x03F0)⟩ := by decide

theorem test_line_previous_output :
    (parseLine "ulaw_to_pcm $OUT".toList).bind (·.request (some ⟨0, 0, 2, [0xce, 0x4e]⟩)) =
      some ⟨0x70000000, 0, 0, 2, [0xce, 0x4e]⟩ ∧
    (parseLine "ulaw_to_pcm $OUT".toList).bind (·.request none) = none := by decide

/-- An expected response in the form of another operation (R55). -/
theorem test_line_expectation_fits :
    parseLine "pcm_to_alaw $OUT -> R=0x0000".toList = none ∧
    parseLine "encode_alaw 0 -> InvalidBufferLength".toList = none ∧
    parseLine "pcm_to_alaw $OUT -> InvalidBufferLength".toList =
      some ⟨.pcmToAlaw, 0, 0, 0, .previousOut, some .invalidBufferLength⟩ := by decide

theorem test_line_errors :
    parseLine "encode_alaw 32768".toList = none ∧ parseLine "decode_alaw 256".toList = none ∧
    parseLine "halt".toList = none := by decide

/-- Program 1 of 95_test_vectors.md section 3, cut to two samples. -/
theorem test_run_lines :
    (runLines [⟨.pcmToAlaw, 0, 0, 0, .bytes [0xe8, 0x03, 0x18, 0xfc], none⟩, ⟨.alawToPcm, 0, 0, 0, .previousOut, none⟩]
      start).bind lastResponse = some ⟨0, 0, 4, [0xf0, 0x03, 0x00, 0x00]⟩ := by decide

theorem test_instances_step_apart :
    (match stepInstance (#v[State.reset.withFetchWord 32 0x000003E8, State.reset] : System 2) 0 with
      | .next sys => decide ((sys[0].responses.length, sys[1]) = (1, State.reset))
      | .fault _ => false
      | .refused _ => false) = true := by decide

/-! ### Witnesses: concrete states and operands that meet the hypotheses of each statement -/

theorem test_witness_DecodeOfEncode :
    (Instr.resamplePcm16 0xFFFFFFFF 0 [1, 2, 3]).wellFormed (some 3) = true ∧
    (Instr.encodeAlaw 0xFFFF).wellFormed (some 0) = true := by decide

theorem test_witness_EncodeOfDecode :
    decode (some 2) ⟨0x50000000, 0, 0, 2, [0xfa, 0x7a]⟩ = .ok (.alawToPcm [0xfa, 0x7a]) := by decide

theorem test_witness_OpcodeRowsDisjoint :
    (⟨.decodeAlaw, 0x10000000, 0xFFFFFF00⟩ : OpRow) ∈ opTable ∧
    rowMatches 0x100000FF ⟨.decodeAlaw, 0x10000000, 0xFFFFFF00⟩ = true := by decide

/-- The four clauses: a request in flight, one of the program, a rejected one, none. -/
theorem test_witness_StepRunsDecodedInstruction :
    decode start.params.lenMax (headerRequest 0x1000007A) = .ok (.decodeAlaw 0x7A) ∧
    ({ start with program := [headerRequest 0] } : State).busy = .idle ∧
    ({ start with program := [headerRequest 0] } : State).program = [headerRequest 0] ∧
    decode start.params.lenMax (headerRequest 0x00010000) = .error .reservedBits ∧
    start.busy = .idle ∧ start.program = [] := by decide

/-- The samples where the clauses of the encoders' rules meet: -9, -8, -1 and 0, and the last before the clamp. -/
theorem test_witness_encoder_clauses :
    [-9, -8, -1, 0].map encodeAlaw = [0x55, 0xD5, 0xD5, 0xD5] ∧ [-32636, -32635, 32635, 32636].map encodeUlaw =
      [0x00, 0x00, 0x80, 0x80] ∧ ¬ (-8 ≤ sampleOf 0xFFF7 ∧ sampleOf 0xFFF7 ≤ -1) ∧ |sampleOf 0x8085| ≤ 32635 := by
  decide

theorem test_witness_AlawNegativeHalfIsOffset :
    encodeAlaw (-9) = 0x55 ∧ encodeAlaw 1 = 0xD5 ∧ encodeAlaw (-32768) = 0x2A ∧ encodeAlaw 32760 = 0xAA := by decide

theorem test_witness_UlawIsSymmetric :
    encodeUlaw (-1) = 0x7F ∧ encodeUlaw 1 = 0xFF ∧ encodeUlaw (-32767) = 0x00 ∧ encodeUlaw 32767 = 0x80 := by decide

/-- Samples within the range of R65 and R66, at its two ends. -/
theorem test_witness_RoundTripsAreMonotone :
    (-32768 : Int) ≤ -32768 ∧ (-32768 : Int) ≤ 32767 ∧ (32767 : Int) ≤ 32767 ∧
    decodeUlaw (encodeUlaw (-32768)) = -32124 ∧ decodeUlaw (encodeUlaw 32767) = 32124 := by decide

/-- The greatest error, 644, is met at -32768; the unclamped clause holds at 32635. -/
theorem test_witness_UlawRoundTripError :
    |decodeUlaw (encodeUlaw (-32768)) - (-32768)| = 644 ∧ |(32635 : Int)| ≤ 32635 ∧ ulawStepSize 0x80 = 1024 := by
  decide

/-- The clauses meet at 0 and -1, and at -8 and -9. -/
theorem test_witness_AlawRoundTripError :
    decodeAlaw .zero (encodeAlaw 0) = 8 ∧ decodeAlaw .zero (encodeAlaw (-1)) = 8 ∧
    decodeAlaw .zero (encodeAlaw (-8)) = 8 ∧ decodeAlaw .zero (encodeAlaw (-9)) = 0 ∧
    decodeAlaw .negate (encodeAlaw (-9)) = -8 := by decide

/-- The last offset inside the buffer and the first outside it, and the last sample. -/
theorem test_witness_ReadsAreLittleEndian :
    (memRead [0x01, 0x02] 0 2).toOption = some 0x0201 ∧ (memRead [0x01, 0x02] 1 2).toOption = none ∧
    (memRead [0x01, 0x02] 1 1).toOption = some 0x02 ∧ (memRead [0x01, 0x02] 2 1).toOption = none ∧
    (sampleAt [0x00, 0x80] 0).toOption = some (-32768) := by decide

theorem test_witness_MemWriteSetsItsBytesOnly :
    Memory.wf [(0, 7)] ∧ 0 + 2 ≤ 2 ∧ (memWrite 2 [(0, 7)] 0 2 65535).toOption = some [(0, 0xFF), (1, 0xFF)] ∧
    (memWrite 2 [(0, 7)] 1 1 255).toOption = some [(0, 7), (1, 0xFF)] := by decide

/-- Within the bound and over it, of even and of odd length. -/
theorem test_witness_buffer_clauses :
    withinLenMax (some 2) [(0 : Byte), 0].length = true ∧ [(0 : Byte), 0].length % 2 = 0 ∧
    [(0 : Byte)].length % 2 = 1 ∧ withinLenMax (some 2) (2 * [(0 : Byte)].length) = true ∧
    withinLenMax (some 2) (2 * [(0 : Byte), 0].length) = false := by decide

theorem test_witness_BufferOperationsConcatenate :
    exec (.pcmToAlaw [0xe8, 0x03]) start = .next (served start ⟨0, 0, 1, [0xfa]⟩) ∧
    exec (.pcmToAlaw [0x18, 0xfc]) start = .next (served start ⟨0, 0, 1, [0x7a]⟩) ∧
    exec (.ulawToPcm [0xce]) start = .next (served start ⟨0, 0, 2, [0xdc, 0x03]⟩) ∧
    exec (.ulawToPcm [0x4e]) start = .next (served start ⟨0, 0, 2, [0x24, 0xfc]⟩) := by
  refine ⟨rfl, rfl, rfl, rfl⟩

theorem test_witness_OneElementBufferAgrees :
    exec (.encodeAlaw ((0x03 : Byte) ++ (0xe8 : Byte))) start = .next (served start ⟨0, 0#8 ++ (0xfa : Byte), 0, []⟩) ∧
    exec (.encodeUlaw ((0x03 : Byte) ++ (0xe8 : Byte))) start = .next (served start ⟨0, 0#8 ++ (0xce : Byte), 0, []⟩) ∧
    withinLenMax start.params.lenMax 2 = true ∧
    exec (.decodeAlaw 0xfa) start = .next (served start ⟨0, 1008, 0, []⟩) ∧
    exec (.decodeUlaw 0xce) start = .next (served start ⟨0, 988, 0, []⟩) := by
  refine ⟨rfl, rfl, rfl, rfl, rfl⟩

theorem test_witness_BufferRoundTrips :
    [(0xe8 : Byte), 0x03].length % 2 = 0 ∧ withinLenMax start.params.lenMax [(0xe8 : Byte), 0x03].length = true ∧
    exec (.pcmToUlaw [0xe8, 0x03]) start = .next (served start ⟨0, 0, 1, [0xce]⟩) ∧
    exec (.pcmToAlaw [0xe8, 0x03]) start = .next (served start ⟨0, 0, 1, [0xfa]⟩) := by
  refine ⟨rfl, rfl, rfl, rfl⟩

/-- A-law round trips at the edges of the four clauses: 0, -8, -9. -/
theorem test_witness_AlawBufferRoundTrip_clauses :
    (pcmSample [0x00, 0x00] 0, pcmSample [0xf8, 0xff] 0, pcmSample [0xf7, 0xff] 0) = (0, -8, -9) ∧
    run (.pcmToAlaw [0x00, 0x00, 0xf8, 0xff, 0xf7, 0xff]) = some ⟨0, 0, 3, [0xd5, 0xd5, 0x55]⟩ := by decide

theorem test_witness_AlawChainNeverErrs :
    exec (.alawToPcm [0xfa]) start = .next (served start ⟨0, 0, 2, [0xf0, 0x03]⟩) := rfl

theorem test_witness_ErrorExactlyOnOddPcm :
    pcmInput (.resamplePcm16 0 8000 [1, 0, 2]) = some [1, 0, 2] ∧ [(1 : Byte), 0, 2].length % 2 = 1 ∧
    run (.resamplePcm16 0 8000 [1, 0, 2]) = some ⟨1, 0, 0, []⟩ ∧
    run (.resamplePcm16 8000 8000 [1, 0, 2]) = some ⟨1, 0, 0, []⟩ := by decide

/-- One response with status `OK` for each clause, the resampler's for equal and for unequal rates. -/
theorem test_witness_OutputLengths :
    exec (.pcmToAlaw [0, 0]) start = .next (served start ⟨0, 0, 1, [0xd5]⟩) ∧
    exec (.pcmToUlaw [0, 0]) start = .next (served start ⟨0, 0, 1, [0xff]⟩) ∧
    exec (.alawToPcm [0xd5]) start = .next (served start ⟨0, 0, 2, [8, 0]⟩) ∧
    exec (.ulawToPcm [0xff]) start = .next (served start ⟨0, 0, 2, [0, 0]⟩) ∧
    exec (.resamplePcm16 5 5 [1, 2]) start = .next (served start ⟨0, 0, 2, [1, 2]⟩) ∧
    run (.resamplePcm16 8000 16000 [5, 0]) = some ⟨0, 0, 4, [5, 0, 5, 0]⟩ := by
  refine ⟨rfl, rfl, rfl, rfl, rfl, ?_⟩
  decide +kernel

/-- The least reserved opcode, the least and the greatest reserved bit, the least code over a byte, and each other
way to set an unused field. -/
theorem test_witness_ReservedRequestsAreRefused :
    9 ≤ (0x9 : BitVec 4).toNat ∧ (1 : BitVec 12) ≠ 0 ∧ (0x800 : BitVec 12) ≠ 0 ∧
    unusedFieldSet 0x1 256 0 0 0 [] ∧ ¬ unusedFieldSet 0x1 255 0 0 0 [] ∧ unusedFieldSet 0x8 1 0 0 0 [] ∧
    unusedFieldSet 0x7 0 0 1 0 [] ∧ unusedFieldSet 0x3 0 0 0 1 [] ∧ unusedFieldSet 0x0 0 0 0 0 [0] := by
  refine ⟨by decide, by decide, by decide, by decide, by decide, by decide, by decide, by decide, by decide⟩

/-- One request for each line of R107, each also meeting a later one where the two can meet. -/
theorem test_witness_PriorityOfConditions :
    refusal (step (serving start (request 0x9 1 0 0 0 1 []))) = some .reservedOpcode ∧
    refusal (step (serving start (request 0x4 0 1 0 0 3 [1, 2, 3]))) = some .reservedBits ∧
    refusal (step (serving start (request 0x4 0 0 0 0 3 [1, 2]))) = some .lengthOutOfRange ∧
    lastResponse (step (serving start (request 0x8 0 0 8000 8000 3 [1, 0, 2]))) = some ⟨1, 0, 0, []⟩ ∧
    lastResponse (step (serving start (request 0x8 0 0 0 0 2 [1, 0]))) = some ⟨0, 0, 2, [1, 0]⟩ ∧
    refusal (step (serving start (request 0x8 0 0 0 8000 2 [1, 0]))) = some .reservedRate ∧
    refusal (step (serving (machine .zero .exact .tiesAway (some 3)) (request 0x5 0 0 0 0 2 [1, 0]))) =
      some .lengthOutOfRange ∧
    lastResponse (step (serving start (request 0x7 0 0 0 0 1 [0x7f]))) = some ⟨0, 0, 2, [0, 0]⟩ := by decide +kernel

theorem test_witness_ResampleRateCases :
    [(1 : Byte), 0].length % 2 = 0 ∧ (8000 : Rate) ≠ 0 ∧
    run (.resamplePcm16 0 0 [1, 0]) = some ⟨0, 0, 2, [1, 0]⟩ ∧
    refusal (exec (.resamplePcm16 0 8000 [1, 0]) start) = some .reservedRate ∧
    run (.resamplePcm16 8000 0 [1, 0]) = some ⟨0, 0, 0, []⟩ := by decide +kernel

/-- An arithmetic on integers whose sum is always `v` and whose quotient is the dividend less `off`. -/
def integerArith (v off : Int) : Arith :=
  { F := Int
    ofInt := fun i => i
    fadd := fun _ _ => v
    fsub := fun x y => x - y
    fmul := fun x y => x * y
    fdiv := fun x _ => x - off
    ffloor := fun x => x
    fround := fun x => x }

/-- Each clause of the output sample at its edge: an index of -1, of `n`, of `n - 1`; 32768 and 32767. -/
theorem test_witness_OutputSampleUnderAnyArithmetic :
    (match resampleSample (integerArith 0 1) [1, 0, 2, 0] 2 (1 : Int) 0 with
      | .error f => decide (f = .indexOutOfRange) | .ok _ => false) = true ∧
    (match resampleSample (integerArith 0 0) [1, 0, 2, 0] 2 (1 : Int) 2 with
      | .error f => decide (f = .indexOutOfRange) | .ok _ => false) = true ∧
    (resampleSample (integerArith 0 0) [1, 0, 2, 0] 2 (1 : Int) 1).toOption = some 2 ∧
    (match resampleSample (integerArith 32768 0) [1, 0, 2, 0] 2 (1 : Int) 0 with
      | .error f => decide (f = .narrowOverflow) | .ok _ => false) = true ∧
    (resampleSample (integerArith 32767 0) [1, 0, 2, 0] 2 (1 : Int) 0).toOption = some 32767 := by decide

/-- Samples 3, 0 at twice the rate under `EXACT`: four outputs, the first two between two inputs (the second a tie),
the last two at the tail (95_test_vectors.md section 2.8). -/
theorem test_witness_ResampleExactComputes :
    (machine .zero .exact .tiesAway (some 8)).params.num = .exact ∧ [(3 : Byte), 0, 0, 0].length % 2 = 0 ∧
    (1 : Rate) ≠ 2 ∧ (1 : Rate) ≠ 0 ∧ withinLenMax (some 8) (2 * (2 * 2 / 1)) = true ∧
    lastResponse (exec (.resamplePcm16 1 2 [3, 0, 0, 0]) (machine .zero .exact .tiesAway (some 8))) =
      some ⟨0, 0, 8, [3, 0, 2, 0, 0, 0, 0, 0]⟩ := by decide +kernel

/-- At `LEN_MAX` = 2^32, two samples at four times the rate. -/
theorem test_witness_ResampleBinary64Computes :
    (machine .zero .binary64 .tiesEven (some 4294967296)).params.num = .binary64 ∧
    [(0 : Byte), 0x80, 0xff, 0x7f].length ≤ 4294967296 ∧ [(0 : Byte), 0x80, 0xff, 0x7f].length % 2 = 0 ∧
    (1 : Rate) ≠ 4 ∧ (1 : Rate) ≠ 0 ∧
    2 * (binary64Round (((2 : Nat) : Rat) * binary64Round ((4 : Nat) / (1 : Nat)))).floor.toNat ≤ 4294967296 := by
  decide +kernel

theorem test_witness_ResampleKeepsFirstSample :
    exec (.resamplePcm16 5 5 [0x9c, 0xff]) start = .next (served start ⟨0, 0, 2, [0x9c, 0xff]⟩) ∧
    run (.resamplePcm16 8000 16000 [0x9c, 0xff]) = some ⟨0, 0, 4, [0x9c, 0xff, 0x9c, 0xff]⟩ ∧
    [(0x9c : Byte), 0xff, 0x9c, 0xff] ≠ [] := by
  refine ⟨rfl, ?_⟩
  decide +kernel

theorem test_witness_ResampleDoubling :
    (4294967295 : Nat) ≤ 2 ^ 53 ∧ [(1 : Byte), 0, 2, 0].length % 2 = 0 ∧ 2 * [(1 : Byte), 0, 2, 0].length ≤ 8 ∧
    (0x7FFFFFFF : Rate) ≠ 0 ∧ (0xFFFFFFFE : Rate).toNat = 2 * (0x7FFFFFFF : Rate).toNat := by decide

theorem test_witness_ResampleHalving :
    [(1 : Byte), 0, 2, 0].length % 2 = 0 ∧ [(1 : Byte), 0, 2, 0].length ≤ 4 ∧ (1 : Rate) ≠ 0 ∧
    (2 : Rate).toNat = 2 * (1 : Rate).toNat := by decide

/-- The integers at the edge of R83, and a tie of each rule of R84. -/
theorem test_witness_rounding :
    |(2 ^ 53 : Int)| ≤ 2 ^ 53 ∧ |(roundBy .tiesAway (1 / 2) : Rat) - 1 / 2| = 1 / 2 ∧
    |(roundBy .tiesEven (3 / 2) : Rat) - 3 / 2| = 1 / 2 := by decide +kernel

theorem test_witness_isBinary64 : isBinary64 (1 / 2) := ⟨1, -1, by decide, by decide, by norm_num⟩

/-- The fault arm can be reached beyond `LEN_MAX` = 2^53: n = 3002399751580333 samples at three times the rate make
`n * ratio` = 2^53 + 7, which binary64 rounds up by one, and the last position falls on index `n`. -/
theorem test_fault_without_length_bound : ∃ (data : List Byte) (f : Fault) (k : Nat),
    let A := arithOf .binary64 .tiesAway
    let outputSample := resampleSample A data (data.length / 2) (resampleRatio A 1 3)
    data.length % 2 = 0 ∧ k < outputCount A (data.length / 2) (resampleRatio A 1 3) ∧ outputSample k = .error f ∧
    (∀ j < k, ∃ y, outputSample j = .ok y) ∧ ∀ s : State,
      s.params = (machine .zero .binary64 .tiesAway none).params → exec (.resamplePcm16 1 3 data) s = .fault f := by
  have hm : outputCount (arithOf .binary64 .tiesAway) 3002399751580333
      (resampleRatio (arithOf .binary64 .tiesAway) 1 3) = 9007199254741000 := by decide +kernel
  have hidx : (arithOf .binary64 .tiesAway).ffloor ((arithOf .binary64 .tiesAway).fdiv
      ((arithOf .binary64 .tiesAway).ofInt 9007199254740999) (resampleRatio (arithOf .binary64 .tiesAway) 1 3)) =
      3002399751580333 := by decide +kernel
  have hlen : (List.replicate (2 * 3002399751580333) (0 : Byte)).length = 2 * 3002399751580333 :=
    List.length_replicate
  generalize List.replicate (2 * 3002399751580333) (0 : Byte) = data at hlen
  have hn : data.length / 2 = 3002399751580333 := by omega
  refine ⟨data, ?_⟩
  rcases resampleWith_cases (arithOf .binary64 .tiesAway) 1 3 data (machine .zero .binary64 .tiesAway none).params with
    ⟨h, -⟩ | ⟨-, y, hy, -⟩ | ⟨-, f, k, -, hk, hbefore, herr, hf⟩
  · cases h
  · have h := hy 9007199254740999 (by rw [hn, hm]; decide)
    rw [resampleSample_eq, hn] at h
    simp only [Nat.cast_ofNat, hidx] at h
    simp at h
  · refine ⟨f, k, by omega, hk, herr, hbefore, fun s hs => ?_⟩
    simp only [exec, execResamplePcm16]
    rw [if_neg (by omega), if_neg (by decide), if_neg (by decide), hs]
    exact hf s hs

theorem test_witness_FaultsOnlyInResampler : ∃ (i : Instr) (s : State) (f : Fault), exec i s = .fault f :=
  let ⟨data, f, _, _, _, _, _, h⟩ := test_fault_without_length_bound
  ⟨.resamplePcm16 1 3 data, machine .zero .binary64 .tiesAway none, f, h _ rfl⟩

/-- A step, and so an instance, that faults. -/
theorem test_witness_faulting_step : ∃ (s : State) (f : Fault), step s = .fault f := by
  obtain ⟨data, f, -, -, -, -, -, h⟩ := test_fault_without_length_bound
  refine ⟨serving (machine .zero .binary64 .tiesAway none) (bufferRequest 0x8 1 3 data), f, ?_⟩
  have hd : decode none (bufferRequest 0x8 1 3 data) = .ok (.resamplePcm16 1 3 data) := by
    have hop : findOp (bufferRequest 0x8 1 3 data).req = some .resamplePcm16 := by
      change findOp (headerOf 0x8 0) = _
      decide
    simp only [decode, hop]
    simp [unusedFieldsZero, Op.perSample, lengthInRange, withinLenMax, assemble, bufferRequest]
  rw [step_serving, show (machine .zero .binary64 .tiesAway none).params.lenMax = none from rfl, hd]
  exact h _ rfl

/-- The refused clause and the completing one; the faulting one is met in `test_fault_without_length_bound`. -/
theorem test_witness_ResampleGivesEverySampleOrStops :
    [(3 : Byte), 0].length % 2 = 0 ∧ (1 : Rate) ≠ 2 ∧ (1 : Rate) ≠ 0 ∧
    outputCount (arithOf .binary64 .tiesAway) 1 (resampleRatio (arithOf .binary64 .tiesAway) 1 2) = 2 ∧
    withinLenMax (some 3) (2 * 2) = false ∧ withinLenMax (some 4) (2 * 2) = true ∧
    (∀ k < 2, (resampleSample (arithOf .binary64 .tiesAway) [3, 0] 1 (resampleRatio (arithOf .binary64 .tiesAway) 1 2)
      k).toOption = some 3) := by decide +kernel

theorem test_witness_NoStepFaults :
    (machine .zero .exact .tiesAway none).params.num = .exact ∧
    State.reset.params.lenMax = some 4294967295 ∧ (4294967295 : Nat) ≤ 4294967296 := by decide

/-- Steps and operations that answer a next state, with and without a request to take. -/
theorem test_witness_next_states :
    exec (.encodeAlaw 1000) start = .next (served start ⟨0, 0x00FA, 0, []⟩) ∧ step start = .next start ∧
    step (serving start (headerRequest 0x000003E8)) = .next (served start ⟨0, 0x00FA, 0, []⟩) ∧
    start.responsesLegal := by
  refine ⟨rfl, rfl, rfl, ?_⟩
  simp [State.responsesLegal, start, machine]

theorem test_witness_ResponseDependsOnRequestOnly : start.params = State.reset.params := by decide

theorem test_witness_ResetLeavesIdle : start.issue (headerRequest 0) = some (serving start (headerRequest 0)) := by decide

theorem test_witness_BusyBlockTakesNoRequest :
    start.busy = .idle ∧ (serving start (headerRequest 0)).busy = .serving (headerRequest 0) := by decide

/-- Three instances: two that answer a next state, one that refuses (one that faults: `test_witness_faulting_step`). -/
theorem test_witness_InstancesAreIndependent :
    let sys : System 3 := #v[serving start (headerRequest 0), start, serving start (headerRequest 0x90000000)]
    (0 : Fin 3) ≠ 1 ∧ (0 : Fin 3) ≠ 2 ∧
    stepInstance sys 0 = .next (sys.set 0 (served start ⟨0, 0x00D5, 0, []⟩)) ∧
    stepInstance sys 1 = .next (sys.set 1 start) ∧ stepInstance sys 2 = .refused .reservedOpcode := by
  refine ⟨by decide, by decide, rfl, rfl, rfl⟩

/-- A system right after reset, and one that mixes settings, which the statement leaves out. -/
theorem test_witness_EqualRequestsOnAnyInstance :
    (systemReset 2).oneSetting ∧
    ¬ System.oneSetting #v[machine .zero .exact .tiesAway none, machine .negate .exact .tiesAway none] :=
  ⟨systemReset_oneSetting 2, fun h =>
    absurd (h 0 1) (show ¬ (machine .zero .exact .tiesAway none).params = (machine .negate .exact .tiesAway none).params
      by decide)⟩

end Sys2Proof.Tests
end

section
/-! PROOFS. One form for all that an operation can do: what it gives is settled by the parameters alone (60_exceptions.md
R112), and a response it gives is legal (10_state.md R16, R17). Everything below is read off `exec_respondsLegally`. -/

namespace Sys2Proof.Machine

/-! ### Lengths within `LEN_MAX` (30_encoding.md R53) -/

theorem withinLenMax_of_le {lenMax : Option Nat} {k n : Nat} (hkn : k ≤ n) (hn : withinLenMax lenMax n = true) :
    withinLenMax lenMax k = true := by
  cases lenMax with
  | none => rfl
  | some bound => exact decide_eq_true (hkn.trans (of_decide_eq_true hn))

@[simp] theorem withinLenMax_zero (lenMax : Option Nat) : withinLenMax lenMax 0 = true := by
  cases lenMax <;> simp [withinLenMax]

/-- A request's instruction has no input beside the request's `DATA`. -/
theorem assemble_input_length_le (op : Op) (r : Request) : (assemble op r).input.length ≤ r.data.length := by
  cases op <;> simp [assemble, Instr.input]

/-- Decoding answers well-formed instructions only. -/
theorem decode_wellFormed {lenMax : Option Nat} {r : Request} {i : Instr} (h : decode lenMax r = .ok i) :
    i.wellFormed lenMax = true := by
  obtain ⟨op, -, -, -, rfl⟩ := decode_ok h
  obtain ⟨-, hdata⟩ := decode_length h
  exact withinLenMax_of_le (assemble_input_length_le op r) hdata

/-! ### The three forms of a legal response (R16, R17) -/

theorem scalarResponse_legal (lenMax : Option Nat) (r : Word) : (scalarResponse r).legal lenMax :=
  ⟨rfl, withinLenMax_zero lenMax, .inl rfl, fun _ => rfl⟩

theorem errorResponse_legal (lenMax : Option Nat) : errorResponse.legal lenMax :=
  ⟨rfl, withinLenMax_zero lenMax, .inr ⟨rfl, rfl, rfl⟩, fun _ => rfl⟩

theorem bufferResponse_legal {lenMax : Option Nat} {olen : Nat} {odata : List Byte} (hlen : olen = odata.length)
    (hfit : withinLenMax lenMax olen = true) : (bufferResponse olen odata).legal lenMax :=
  ⟨hlen, hfit, .inl rfl, fun hr => absurd rfl hr⟩

/-! ### Outcomes as responses -/

@[simp] theorem respond_serving (s : State) (r : Request) (o : Host.Outcome Response Fault Refusal) :
    respond (serving s r) o = respond s o := by
  cases o <;> rfl

/-- A next state is the state after a response. -/
theorem respond_next {s t : State} {o : Host.Outcome Response Fault Refusal} :
    respond s o = .next t ↔ ∃ resp, o = .next resp ∧ t = served s resp := by
  cases o <;> simp [respond, eq_comm]

/-- From every state with the parameters `params`, the operation `op` ends with the same response, fault or refusal;
a response is legal where the operation's input, of `n` bytes, is within `LEN_MAX`. -/
def RespondsLegally (params : Params) (n : Nat) (op : State → Outcome) : Prop :=
  ∃ o : Host.Outcome Response Fault Refusal,
    (∀ s : State, s.params = params → op s = respond s o) ∧
    ∀ resp, o = .next resp → withinLenMax params.lenMax n = true → resp.legal params.lenMax

section
variable {params : Params} {n : Nat} {op op' : State → Outcome}

theorem RespondsLegally.of_next {resp : Response}
    (hop : ∀ s : State, s.params = params → op s = .next (served s resp))
    (hlegal : withinLenMax params.lenMax n = true → resp.legal params.lenMax) : RespondsLegally params n op :=
  ⟨.next resp, hop, fun _ hresp => by cases hresp; exact hlegal⟩

theorem RespondsLegally.of_fault {f : Fault} (hop : ∀ s : State, s.params = params → op s = .fault f) :
    RespondsLegally params n op :=
  ⟨.fault f, hop, nofun⟩

theorem RespondsLegally.of_refused {reason : Refusal} (hop : ∀ s : State, s.params = params → op s = .refused reason) :
    RespondsLegally params n op :=
  ⟨.refused reason, hop, nofun⟩

/-- Only what the operation does under `params` counts. -/
theorem RespondsLegally.congr (h : RespondsLegally params n op) (hop : ∀ s : State, s.params = params → op' s = op s) :
    RespondsLegally params n op' := by
  obtain ⟨o, ho, hlegal⟩ := h
  exact ⟨o, fun s hs => (hop s hs).trans (ho s hs), hlegal⟩

end

/-! ### The nine operations -/

theorem compressBuffer_respondsLegally (params : Params) (f : Int → Byte) (data : List Byte) :
    RespondsLegally params data.length (compressBuffer f data) := by
  rcases Nat.mod_two_eq_zero_or_one data.length with heven | hodd
  · exact .of_next (fun s _ => compressBuffer_even heven s)
      fun hin => bufferResponse_legal (by simp) (withinLenMax_of_le (Nat.div_le_self _ _) hin)
  · exact .of_next (fun s _ => compressBuffer_odd hodd s) fun _ => errorResponse_legal _

theorem expandBuffer_respondsLegally (params : Params) (f : Byte → Int) (data : List Byte) :
    RespondsLegally params data.length (expandBuffer f data) := by
  cases hfit : withinLenMax params.lenMax (2 * data.length) with
  | false => exact .of_refused fun s hs => expandBuffer_refused (hs ▸ hfit)
  | true =>
    exact .of_next (fun s hs => expandBuffer_fits (hs ▸ hfit))
      fun _ => bufferResponse_legal (by rw [length_flatMap_sampleBytes]) hfit

theorem resampleWith_respondsLegally (params : Params) (A : Arith) (inRate outRate : Rate) (data : List Byte) :
    RespondsLegally params data.length (resampleWith A inRate outRate data) := by
  obtain ⟨-, hrefused⟩ | ⟨hfit, y, -, hnext⟩ | ⟨-, f, k, -, -, -, -, hfault⟩ :=
    resampleWith_cases A inRate outRate data params
  · exact .of_refused hrefused
  · exact .of_next hnext fun _ => bufferResponse_legal (by rw [length_flatMap_sampleBytes, List.length_range]) hfit
  · exact .of_fault hfault

/-- The checks of `resample_pcm16` in the order of 42_resampler.md R81, then its computation. -/
theorem execResamplePcm16_respondsLegally (params : Params) (inRate outRate : Rate) (data : List Byte) :
    RespondsLegally params data.length (execResamplePcm16 inRate outRate data) := by
  by_cases hodd : data.length % 2 ≠ 0
  · exact .of_next (fun s _ => if_pos hodd) fun _ => errorResponse_legal _
  by_cases hsame : inRate = outRate
  · exact .of_next (fun s _ => (if_neg hodd).trans (if_pos hsame)) (bufferResponse_legal rfl)
  by_cases hzero : inRate = 0
  · exact .of_refused fun s _ => by rw [execResamplePcm16, if_neg hodd, if_neg hsame, if_pos hzero]
  · refine (resampleWith_respondsLegally params (arithOf params.num params.round) inRate outRate data).congr
      fun s hs => ?_
    rw [execResamplePcm16, if_neg hodd, if_neg hsame, if_neg hzero, hs]

theorem exec_respondsLegally (params : Params) (i : Instr) : RespondsLegally params i.input.length (exec i) := by
  cases i with
  | encodeAlaw sample => exact .of_next (fun _ _ => rfl) fun _ => scalarResponse_legal _ _
  | decodeAlaw code =>
    exact .of_next (resp := scalarResponse (tc16 (decodeAlaw params.alawDecNeg code))) (fun s hs => by cases hs; rfl)
      fun _ => scalarResponse_legal _ _
  | encodeUlaw sample => exact .of_next (fun _ _ => rfl) fun _ => scalarResponse_legal _ _
  | decodeUlaw code => exact .of_next (fun _ _ => rfl) fun _ => scalarResponse_legal _ _
  | pcmToAlaw data => exact compressBuffer_respondsLegally params encodeAlaw data
  | alawToPcm data =>
    exact (expandBuffer_respondsLegally params (decodeAlaw params.alawDecNeg) data).congr fun s hs => by cases hs; rfl
  | pcmToUlaw data => exact compressBuffer_respondsLegally params encodeUlaw data
  | ulawToPcm data => exact expandBuffer_respondsLegally params decodeUlaw data
  | resamplePcm16 inRate outRate data => exact execResamplePcm16_respondsLegally params inRate outRate data

/-! ### What a next state is -/

/-- An operation that answers a next state has given one response, legal if the instruction is well formed. -/
theorem exec_next {i : Instr} {s t : State} (h : exec i s = .next t) :
    ∃ resp, t = served s resp ∧ (i.wellFormed s.params.lenMax = true → resp.legal s.params.lenMax) := by
  obtain ⟨o, ho, hlegal⟩ := exec_respondsLegally s.params i
  obtain ⟨resp, hresp, ht⟩ := respond_next.mp ((ho s rfl).symm.trans h)
  exact ⟨resp, ht, hlegal resp hresp⟩

/-- Taking a request changes neither the parameters nor the responses given. -/
theorem fetch_frame {s s' : State} {r : Request} (h : fetch s = some (r, s')) :
    s'.params = s.params ∧ s'.responses = s.responses := by
  obtain ⟨-, -, hf⟩ | ⟨_, -, hf⟩ | ⟨_, _, -, -, hf⟩ := fetch_cases s
  · cases hf.symm.trans h
  · cases hf.symm.trans h
    exact ⟨rfl, rfl⟩
  · cases hf.symm.trans h
    exact ⟨rfl, rfl⟩

/-- A step that answers a next state has found nothing to do, or has given one legal response to the request it
took. -/
theorem step_next {s t : State} (h : step s = .next t) :
    (s.busy = .idle ∧ s.program = [] ∧ t = s) ∨
    ∃ r s' resp, fetch s = some (r, s') ∧ t = served s' resp ∧ resp.legal s.params.lenMax := by
  obtain ⟨hidle, hprog, hs⟩ | ⟨r, s', hf, ⟨e, -, hs⟩ | ⟨i, hd, hs⟩⟩ := step_cases s <;> rw [hs] at h
  · cases h; exact .inl ⟨hidle, hprog, rfl⟩
  · cases h
  · obtain ⟨resp, ht, hlegal⟩ := exec_next h
    obtain ⟨hparams, -⟩ := fetch_frame hf
    exact .inr ⟨r, s', resp, hf, ht, hparams ▸ hlegal (decode_wellFormed hd)⟩

/-- No step changes the parameters (70_reset_and_hazards.md R123(c)). -/
theorem step_next_params {s t : State} (h : step s = .next t) : t.params = s.params := by
  obtain ⟨-, -, rfl⟩ | ⟨_, _, _, hf, rfl, -⟩ := step_next h
  · rfl
  · exact (fetch_frame hf).1

/-- What a request gets is a function of the request and the parameters (R112). -/
theorem step_serving_eq_respond (params : Params) (r : Request) : ∃ o : Host.Outcome Response Fault Refusal,
    ∀ s : State, s.params = params → step (serving s r) = respond s o := by
  cases hd : decode params.lenMax r with
  | error e => exact ⟨.refused (refusalOf e), fun s hs => by rw [step_serving, hs, hd]; rfl⟩
  | ok i =>
    obtain ⟨o, ho, -⟩ := exec_respondsLegally params i
    exact ⟨o, fun s hs => by rw [step_serving, hs, hd, ← respond_serving s r o]; exact ho _ hs⟩

/-- A step of one block of a system changes the parameters of none (60_exceptions.md R114). -/
theorem stepInstance_next_params {nInst : Nat} {sys sys' : System nInst} {i : Fin nInst}
    (h : stepInstance sys i = .next sys') (j : Fin nInst) : sys'[j].params = sys[j].params := by
  obtain ⟨t, hstep, rfl⟩ := stepInstance_next.mp h
  by_cases hij : i = j
  · subst hij
    simpa using step_next_params hstep
  · simp [Fin.val_inj, hij]

/-! ### The statements -/

/-- Settles O54: a step adds no response, or one that is legal. -/
theorem stepKeepsResponsesLegal : Obligations.StepKeepsResponsesLegal := by
  intro s t hs h
  obtain ⟨-, -, rfl⟩ | ⟨r, s', resp, hf, rfl, hlegal⟩ := step_next h
  · exact hs
  · obtain ⟨hparams, hresponses⟩ := fetch_frame hf
    rw [State.responsesLegal, served_params, served_responses, hparams, hresponses]
    exact List.forall_mem_append.mpr ⟨hs, List.forall_mem_singleton.mpr hlegal⟩

/-- Settles O50: the next state is `served s resp`, and that state's fields are the frame. -/
theorem execFrame : Obligations.ExecFrame := by
  intro i s t h
  obtain ⟨resp, rfl, -⟩ := exec_next h
  exact ⟨served_params s resp, served_program s resp, served_busy s resp, resp, served_responses s resp⟩

/-- Settles O59: a step in the system keeps every block's parameters, and they alone settle what a request gets. -/
theorem equalRequestsOnAnyInstance : Obligations.EqualRequestsOnAnyInstance := by
  intro nInst sys hone
  constructor
  · intro i sys' h j k
    rw [stepInstance_next_params h j, stepInstance_next_params h k, hone j k]
  · intro i j r
    obtain ⟨o, ho⟩ := step_serving_eq_respond sys[i].params r
    exact ⟨o, ho _ rfl, ho _ (hone j i)⟩

end Sys2Proof.Machine
end

section
/-! PROOFS. The access primitives and the output sizes (20_memory.md R22 to R25, R36): what a read outside the buffer
answers, which byte a write puts where, and how long the output of a response is. -/

namespace Sys2Proof.Machine

/-! ### Reading (R22, R24, R25) -/

/-- A read has no value as soon as the last of its bytes is outside the buffer. -/
theorem readLE_outside {data : List Byte} {a n : Nat} (h : data.length ≤ a + n) : readLE data a (n + 1) = none := by
  induction n generalizing a with
  | zero => simp [readLE, List.getElem?_eq_none (Nat.add_zero a ▸ h)]
  | succ n ih =>
    rw [readLE, ih (by omega)]
    cases data[a]? <;> rfl

/-- The guard of `MemRead` (R22). -/
theorem memRead_outside {data : List Byte} {a n : Nat} (h : data.length ≤ a + n) :
    memRead data a (n + 1) = .error .readOutside := by
  rw [memRead, readLE_outside h]

/-- The pattern of sample `k` is its two bytes, the one at the lower offset less significant. -/
theorem tc16_pcmSample {data : List Byte} {k : Nat} (h : 2 * k + 1 < data.length) :
    tc16 (pcmSample data k) = data[2 * k + 1] ++ data[2 * k] := by
  have hlow : 2 * k < data.length := by omega
  simp [pcmSample, h, hlow]

/-! ### Writing (R23) -/

/-- Byte `j` of a write of `n` bytes is the `j`-th digit of the value to base 256. -/
theorem read_writeLE_byte {m : Memory} {a n j v : Nat} (hj : j < n) :
    (m.writeLE a n v).read (a + j) = some (BitVec.ofNat 8 (v / 256 ^ j)) := by
  induction n generalizing m a j v with
  | zero => omega
  | succ n ih =>
    rw [Memory.writeLE]
    cases j with
    | zero => rw [read_writeLE_other (by omega), Nat.add_zero, read_write_same, pow_zero, Nat.div_one]
    | succ j => rw [Nat.add_comm j 1, ← Nat.add_assoc, ih (by omega), Nat.div_div_eq_div_mul, pow_add, pow_one]

/-! ### The output of a response (R36) -/

/-- The outcome tells which response was given. -/
theorem next_served_injective {s : State} {a b : Response} (h : (.next (served s a) : Outcome) = .next (served s b)) :
    a = b :=
  served_injective.mp (Host.Outcome.next.inj h)

theorem compressBuffer_lengths {f : Int → Byte} {data : List Byte} {s : State} {resp : Response}
    (h : compressBuffer f data s = .next (served s resp)) :
    resp.odata.length = resp.olen ∧ (resp.status = 0x00 → resp.olen = data.length / 2) := by
  obtain ⟨-, hc⟩ | ⟨-, hc⟩ := compressBuffer_cases f data s
  · obtain rfl := next_served_injective (hc.symm.trans h)
    exact ⟨rfl, nofun⟩
  · obtain rfl := next_served_injective (hc.symm.trans h)
    exact ⟨by rw [List.length_map, List.length_range], fun _ => rfl⟩

theorem expandBuffer_lengths {f : Byte → Int} {data : List Byte} {s : State} {resp : Response}
    (h : expandBuffer f data s = .next (served s resp)) :
    resp.odata.length = resp.olen ∧ resp.olen = 2 * data.length := by
  obtain ⟨-, he⟩ | ⟨-, he⟩ := expandBuffer_cases f data s
  · cases he.symm.trans h
  · obtain rfl := next_served_injective (he.symm.trans h)
    exact ⟨length_flatMap_sampleBytes _ _, rfl⟩

theorem resampleWith_lengths {A : Arith} {inRate outRate : Rate} {data : List Byte} {s : State} {resp : Response}
    (h : resampleWith A inRate outRate data s = .next (served s resp)) :
    resp.odata.length = resp.olen ∧
      resp.olen = 2 * outputCount A (data.length / 2) (resampleRatio A inRate outRate) := by
  obtain ⟨-, hr⟩ | ⟨-, y, -, hr⟩ | ⟨-, f, k, -, -, -, -, hr⟩ := resampleWith_cases A inRate outRate data s.params
  · cases (hr s rfl).symm.trans h
  · obtain rfl := next_served_injective ((hr s rfl).symm.trans h)
    exact ⟨by rw [length_flatMap_sampleBytes, List.length_range], rfl⟩
  · cases (hr s rfl).symm.trans h

/-- By the checks of `resample_pcm16` in the order of 42_resampler.md R81. -/
theorem execResamplePcm16_lengths {inRate outRate : Rate} {data : List Byte} {s : State} {resp : Response}
    (h : execResamplePcm16 inRate outRate data s = .next (served s resp)) :
    resp.odata.length = resp.olen ∧ (resp.status = 0x00 →
      if inRate = outRate then resp.olen = data.length
      else resp.olen = 2 * outputCount (arithOf s.params.num s.params.round) (data.length / 2)
        (resampleRatio (arithOf s.params.num s.params.round) inRate outRate)) := by
  rw [execResamplePcm16] at h
  split at h
  · obtain rfl := next_served_injective h
    exact ⟨rfl, nofun⟩
  split at h
  next hsame =>
    obtain rfl := next_served_injective h
    exact ⟨rfl, fun _ => by rw [if_pos hsame]; rfl⟩
  next hdiffer =>
    split at h
    · cases h
    · obtain ⟨hodata, holen⟩ := resampleWith_lengths h
      exact ⟨hodata, fun _ => by rw [if_neg hdiffer]; exact holen⟩

/-- `OLEN` is the number of bytes of `ODATA` (10_state.md R16), for every instruction, well formed or not. -/
theorem exec_odata_length {i : Instr} {s : State} {resp : Response} (h : exec i s = .next (served s resp)) :
    resp.odata.length = resp.olen := by
  cases i with
  | encodeAlaw | decodeAlaw | encodeUlaw | decodeUlaw =>
    obtain rfl := next_served_injective h
    rfl
  | pcmToAlaw | pcmToUlaw => exact (compressBuffer_lengths h).1
  | alawToPcm | ulawToPcm => exact (expandBuffer_lengths h).1
  | resamplePcm16 => exact (execResamplePcm16_lengths h).1

/-! ### The statements -/

/-- Settles O21: the bytes inside the buffer are `memRead_one`, `memRead_two` and `tc16_pcmSample`; outside it the
guard answers. -/
theorem readsAreLittleEndian : Obligations.ReadsAreLittleEndian := by
  intro data addr k
  refine ⟨?_, ?_, fun h => ?_⟩
  · split
    · exact memRead_one (by omega)
    · exact memRead_outside (by omega)
  · split
    · exact memRead_two (by omega)
    · exact memRead_outside (by omega)
  · obtain ⟨hlow, hhigh⟩ := pcmSample_range data k
    refine ⟨pcmSample data k, sampleAt_eq h, hlow, hhigh, ?_, ?_⟩ <;> rw [tc16_pcmSample h]
    · exact BitVec.extractLsb'_append_eq_right
    · exact BitVec.extractLsb'_append_eq_left

/-- Settles O22: the write is `writeLE`, whose byte `j` is the `j`-th digit of the value. -/
theorem memWriteSetsItsBytesOnly : Obligations.MemWriteSetsItsBytesOnly := by
  intro olen out addr n v hwf hfit hn
  refine ⟨out.writeLE addr n v, if_pos hfit, writeLE_wf hwf addr n v, ?_, fun h2 => ?_,
    fun a ha => read_writeLE_other ha⟩
  · have hlow : BitVec.ofNat 8 (v % 256) = BitVec.ofNat 8 v := BitVec.eq_of_toNat_eq (by simp)
    simpa [hlow] using read_writeLE_byte (m := out) (a := addr) (v := v) (show 0 < n by omega)
  · simpa using read_writeLE_byte (m := out) (a := addr) (v := v) (show 1 < n by omega)

/-- Settles O33: each clause is the length lemma of its operation. -/
theorem outputLengths : Obligations.OutputLengths := by
  intro s data inRate outRate resp hok
  exact ⟨fun h => (compressBuffer_lengths h).2 hok, fun h => (compressBuffer_lengths h).2 hok,
    fun h => (expandBuffer_lengths h).2, fun h => (expandBuffer_lengths h).2,
    fun h => (execResamplePcm16_lengths h).2 hok, fun _ h => exec_odata_length h⟩

end Sys2Proof.Machine
end

section
/-! PROOFS. The encoding of requests (30_encoding.md R44 to R57): which headers name an operation, decoding and encoding
as inverses of each other, the requests that are refused, and the name at the front of a line. -/

namespace Sys2Proof.Machine

/-! ### The rows of the opcode map (R48) -/

/-- How many values of the field `A` the row of an operation lets through (the mask column of R48). -/
def fieldABound : Op → Nat
  | .encodeAlaw | .encodeUlaw => 2 ^ 16
  | .decodeAlaw | .decodeUlaw => 2 ^ 8
  | .pcmToAlaw | .alawToPcm | .pcmToUlaw | .ulawToPcm | .resamplePcm16 => 1

/-- A row is found by its opcode, a reserved field of zero and an `A` within the row's bound, and by nothing else. -/
theorem findOp_eq_some_iff {opcode : BitVec 4} {zero : BitVec 12} {a : Word} {op : Op} :
    findOp (opcode ++ (zero ++ a)) = some op ↔ opcode = opNumber op ∧ zero = 0#12 ∧ a.toNat < fieldABound op := by
  have ha := a.isLt
  rw [findOp_fields]
  constructor
  · intro h
    repeat' split at h
    all_goals cases h
    all_goals
      refine ⟨BitVec.eq_of_toNat_eq ‹_›, BitVec.eq_of_toNat_eq (not_not.mp ‹_›), ?_⟩
      simp only [fieldABound]
      omega
  · rintro ⟨rfl, rfl, hfit⟩
    cases op <;> simp_all [opNumber, fieldABound]

theorem opNumber_le_eight (op : Op) : (opNumber op).toNat ≤ 8 := by
  cases op <;> decide

theorem perSample_of_opNumber {op : Op} : (opNumber op).toNat < 4 → op.perSample = true := by
  cases op <;> decide

theorem fieldABound_of_code {op : Op} : opNumber op = 0x1 ∨ opNumber op = 0x3 → fieldABound op = 256 := by
  cases op <;> decide

theorem fieldABound_of_buffer {op : Op} : 4 ≤ (opNumber op).toNat → fieldABound op = 1 := by
  cases op <;> decide

/-! ### The code operand within the field `A` (R45) -/

theorem toNat_zero_append_code (code : Byte) : (0#8 ++ code : Word).toNat = code.toNat := by
  rw [BitVec.toNat_append]
  simp

theorem zero_append_code {req : Header} (h : (headerA req).toNat < 2 ^ 8) :
    0#8 ++ req.extractLsb' 0 8 = headerA req := by
  apply BitVec.eq_of_toNat_eq
  rw [toNat_zero_append_code]
  simp only [headerA, BitVec.extractLsb'_toNat] at h ⊢
  omega

theorem code_headerOf (opcode : BitVec 4) (code : Byte) :
    (headerOf opcode (0#8 ++ code)).extractLsb' 0 8 = code := by
  apply BitVec.eq_of_toNat_eq
  have := code.isLt
  rw [BitVec.extractLsb'_toNat, headerOf, header_toNat, toNat_zero_append_code]
  omega

/-! ### An instruction's own request (R44, R49) -/

/-- The operation of an instruction. -/
def instrOp : Instr → Op
  | .encodeAlaw _ => .encodeAlaw
  | .decodeAlaw _ => .decodeAlaw
  | .encodeUlaw _ => .encodeUlaw
  | .decodeUlaw _ => .decodeUlaw
  | .pcmToAlaw _ => .pcmToAlaw
  | .alawToPcm _ => .alawToPcm
  | .pcmToUlaw _ => .pcmToUlaw
  | .ulawToPcm _ => .ulawToPcm
  | .resamplePcm16 _ _ _ => .resamplePcm16

/-- The field `A` of an instruction's request. -/
def instrA : Instr → Word
  | .encodeAlaw sample | .encodeUlaw sample => sample
  | .decodeAlaw code | .decodeUlaw code => 0#8 ++ code
  | .pcmToAlaw _ | .alawToPcm _ | .pcmToUlaw _ | .ulawToPcm _ | .resamplePcm16 _ _ _ => 0

theorem encode_req (i : Instr) : (encode i).req = headerOf (opNumber (instrOp i)) (instrA i) := by
  cases i <;> rfl

theorem encode_length (i : Instr) : (encode i).len = i.input.length ∧ (encode i).data = i.input := by
  cases i <;> exact ⟨rfl, rfl⟩

theorem instrA_lt (i : Instr) : (instrA i).toNat < fieldABound (instrOp i) := by
  cases i with
  | encodeAlaw sample | encodeUlaw sample => exact sample.isLt
  | decodeAlaw code | decodeUlaw code => exact (toNat_zero_append_code code).trans_lt code.isLt
  | pcmToAlaw | alawToPcm | pcmToUlaw | ulawToPcm | resamplePcm16 => exact Nat.zero_lt_one

theorem findOp_encode (i : Instr) : findOp (encode i).req = some (instrOp i) := by
  rw [encode_req, headerOf]
  exact findOp_eq_some_iff.mpr ⟨rfl, rfl, instrA_lt i⟩

theorem unusedFieldsZero_encode (i : Instr) : unusedFieldsZero (instrOp i) (encode i) = true := by
  cases i <;> simp [unusedFieldsZero, instrOp, encode, headerRequest, bufferRequest, Op.perSample]

theorem lengthInRange_encode {lenMax : Option Nat} {i : Instr} (h : i.wellFormed lenMax = true) :
    lengthInRange lenMax (encode i) = true := by
  obtain ⟨hlen, hdata⟩ := encode_length i
  rw [lengthInRange, hlen, hdata, beq_self_eq_true, Bool.true_and]
  exact h

theorem assemble_encode (i : Instr) : assemble (instrOp i) (encode i) = i := by
  cases i with
  | encodeAlaw sample | encodeUlaw sample => exact congrArg _ (headerA_append _ _ sample)
  | decodeAlaw code | decodeUlaw code => exact congrArg _ (code_headerOf _ code)
  | pcmToAlaw | alawToPcm | pcmToUlaw | ulawToPcm | resamplePcm16 => rfl

/-- The three checks of R49 are enough; `decode_ok` says that they are needed. -/
theorem decode_of_checks {lenMax : Option Nat} {r : Request} {op : Op} (hop : findOp r.req = some op)
    (hunused : unusedFieldsZero op r = true) (hlen : lengthInRange lenMax r = true) :
    decode lenMax r = .ok (assemble op r) := by
  simp [decode, hop, hunused, hlen]

/-! ### The request an instruction was assembled from (R52) -/

theorem instrOp_assemble (op : Op) (r : Request) : instrOp (assemble op r) = op := by
  cases op <;> rfl

theorem instrA_assemble {op : Op} {r : Request} (h : (headerA r.req).toNat < fieldABound op) :
    instrA (assemble op r) = headerA r.req := by
  cases op with
  | encodeAlaw | encodeUlaw => rfl
  | decodeAlaw | decodeUlaw => exact zero_append_code h
  | pcmToAlaw | alawToPcm | pcmToUlaw | ulawToPcm | resamplePcm16 =>
    exact (BitVec.eq_of_toNat_eq (Nat.lt_one_iff.mp h)).symm

/-- A header that names an operation is the one the encoder writes for the assembled instruction. -/
theorem encode_assemble_req {r : Request} {op : Op} (hop : findOp r.req = some op) :
    (encode (assemble op r)).req = r.req := by
  rw [← header_split r.req, findOp_eq_some_iff] at hop
  obtain ⟨hopcode, hzero, hfit⟩ := hop
  rw [encode_req, instrOp_assemble, instrA_assemble hfit, headerOf, ← hopcode, ← hzero, header_split]

theorem unusedFieldsZero_iff {op : Op} {r : Request} : unusedFieldsZero op r = true ↔
    (op ≠ .resamplePcm16 → r.inRate = 0 ∧ r.outRate = 0) ∧ (op.perSample = true → r.len = 0 ∧ r.data = []) := by
  simp only [unusedFieldsZero, Bool.and_eq_true, Bool.or_eq_true, Bool.not_eq_true', beq_iff_eq, List.isEmpty_iff,
    ← Bool.not_eq_true, ne_eq, or_iff_not_imp_left, not_not]

/-- Each field of an accepted request is an operand, the length of `DATA`, or zero, so the instruction tells the whole
request. -/
theorem encode_assemble {r : Request} {op : Op} (hop : findOp r.req = some op)
    (hunused : unusedFieldsZero op r = true) (hlen : r.len = r.data.length) : encode (assemble op r) = r := by
  have hreq := encode_assemble_req hop
  obtain ⟨hrates, hdata⟩ := unusedFieldsZero_iff.mp hunused
  obtain ⟨req, inRate, outRate, len, data⟩ := r
  obtain rfl : len = data.length := hlen
  cases op with
  | encodeAlaw | decodeAlaw | encodeUlaw | decodeUlaw =>
    obtain ⟨rfl, rfl⟩ := hrates nofun
    obtain ⟨-, rfl⟩ := hdata rfl
    exact congrArg (Request.mk · 0 0 0 []) hreq
  | pcmToAlaw | alawToPcm | pcmToUlaw | ulawToPcm =>
    obtain ⟨rfl, rfl⟩ := hrates nofun
    exact congrArg (Request.mk · 0 0 data.length data) hreq
  | resamplePcm16 => exact congrArg (Request.mk · inRate outRate data.length data) hreq

/-! ### Refused requests (R50 to R52) -/

theorem decode_reservedOpcode {lenMax : Option Nat} {opcode : BitVec 4} {zero : BitVec 12} {a : Word}
    {inRate outRate : Rate} {len : Nat} {data : List Byte} (h : 9 ≤ opcode.toNat) :
    decode lenMax (request opcode zero a inRate outRate len data) = .error .reservedOpcode := by
  have hnone : findOp (opcode ++ (zero ++ a)) = none := by
    rw [Option.eq_none_iff_forall_ne_some]
    intro op hop
    obtain ⟨rfl, -, -⟩ := findOp_eq_some_iff.mp hop
    exact absurd (opNumber_le_eight op) (by omega)
  rw [decode, request, hnone, headerOp_append]
  exact if_pos h

/-- An accepted request has its reserved field and every unused field zero or empty. -/
theorem decode_request_ok {lenMax : Option Nat} {opcode : BitVec 4} {zero : BitVec 12} {a : Word}
    {inRate outRate : Rate} {len : Nat} {data : List Byte} {i : Instr}
    (h : decode lenMax (request opcode zero a inRate outRate len data) = .ok i) :
    zero = 0 ∧ ¬ unusedFieldSet opcode a inRate outRate len data := by
  obtain ⟨op, hop, hunused, -, -⟩ := decode_ok h
  obtain ⟨rfl, hzero, hfit⟩ := findOp_eq_some_iff.mp hop
  obtain ⟨hrates, hdata⟩ := unusedFieldsZero_iff.mp hunused
  refine ⟨hzero, ?_⟩
  rintro (⟨hcode, ha⟩ | ⟨hbuffer, ha⟩ | ⟨hother, hrate⟩ | ⟨hscalar, hfield⟩)
  · rw [fieldABound_of_code hcode] at hfit
    omega
  · rw [fieldABound_of_buffer hbuffer] at hfit
    exact ha (BitVec.eq_of_toNat_eq (Nat.lt_one_iff.mp hfit))
  · obtain ⟨hin, hout⟩ := hrates fun hop => hother (congrArg opNumber hop)
    exact hrate.elim (absurd hin) (absurd hout)
  · obtain ⟨hlen, hdata⟩ := hdata (perSample_of_opNumber hscalar)
    exact hfield.elim (absurd hlen) (absurd hdata)

/-- What decodes to nothing is refused (60_exceptions.md R104). -/
theorem step_refused_of_decode_ne_ok {s : State} {r : Request} (h : ∀ i, decode s.params.lenMax r ≠ .ok i) :
    ∃ reason, step (serving s r) = .refused reason := by
  rw [step_serving]
  cases hd : decode s.params.lenMax r with
  | error e => exact ⟨refusalOf e, rfl⟩
  | ok i => exact absurd hd (h i)

/-! ### The name at the front of a line (R55, R56) -/

/-- A character of a word: no blank, no separator, no start of a comment. -/
def wordChar (c : Char) : Bool :=
  !(c == ';' || c == ' ' || c == '\t' || c == ',' || c == openBrace || c == closeBrace)

theorem tokens_word {w : List Char} (hw : w.all wordChar = true) (cur rest : List Char) :
    tokens (w ++ rest) cur = tokens rest (cur ++ w) := by
  induction w generalizing cur with
  | nil => rw [List.nil_append, List.append_nil]
  | cons c w ih =>
    rw [List.all_cons, Bool.and_eq_true] at hw
    obtain ⟨hc, hw⟩ := hw
    simp only [wordChar, Bool.not_eq_true', Bool.or_eq_false_iff, beq_eq_false_iff_ne] at hc
    simp [tokens, hc, ih hw]

/-- A word before a blank is the first token. -/
theorem tokens_word_blank {w : List Char} (hw : w.all wordChar = true) (hne : w ≠ []) (rest : List Char) :
    tokens (w ++ ' ' :: rest) [] = w :: tokens rest [] := by
  rw [tokens_word hw]
  simp [tokens, flushToken, hne]

/-- A line's name counts only through the operation it is looked up as. -/
theorem parseLine_congr_name {line line' name name' : List Char} {operands : List (List Char)}
    (h : tokens line [] = name :: operands) (h' : tokens line' [] = name' :: operands)
    (hname : name ≠ "->".toList) (hname' : name' ≠ "->".toList)
    (hlookup : mnemonicTable.lookup name = mnemonicTable.lookup name') : parseLine line = parseLine line' := by
  have hkeep : (!(name == "->".toList)) = true := by simpa using hname
  have hkeep' : (!(name' == "->".toList)) = true := by simpa using hname'
  simp only [parseLine, h, h', List.takeWhile_cons, List.dropWhile_cons, hkeep, hkeep', if_true, hlookup,
    List.cons.injEq, true_and]

/-! ### The statements -/

/-- Settles O1: the instruction's own request passes the three checks of R49, and its operands come back. -/
theorem decodeOfEncode : Obligations.DecodeOfEncode := by
  intro lenMax i h
  rw [decode_of_checks (findOp_encode i) (unusedFieldsZero_encode i) (lengthInRange_encode h), assemble_encode]

/-- Settles O2: `encode_assemble`, from the checks that an accepted request has passed. -/
theorem encodeOfDecode : Obligations.EncodeOfDecode := by
  intro lenMax r i h
  refine ⟨?_, decode_wellFormed h⟩
  obtain ⟨hlen, -⟩ := decode_length h
  obtain ⟨op, hop, hunused, -, rfl⟩ := decode_ok h
  exact encode_assemble hop hunused hlen

/-- Settles O3: two rows that match one header agree on the bits both of them fix, and in the map only a row and itself
do. -/
theorem opcodeRowsDisjoint : Obligations.OpcodeRowsDisjoint := by
  have hrows : ∀ row ∈ opTable, ∀ row' ∈ opTable,
      row.pattern &&& row'.mask = row'.pattern &&& row.mask → row = row' := by decide
  intro req row row' hrow hrow' hmatch hmatch'
  simp only [rowMatches, beq_iff_eq] at hmatch hmatch'
  apply hrows row hrow row' hrow'
  rw [← hmatch, ← hmatch', BitVec.and_assoc, BitVec.and_assoc, BitVec.and_comm row.mask]

/-- Settles O34: the reason of the first clause is the decoder's; in the other two no instruction is decoded. -/
theorem reservedRequestsAreRefused : Obligations.ReservedRequestsAreRefused := by
  intro s opcode zero a inRate outRate len data
  refine ⟨fun hreserved => ?_, fun hzero => ?_, fun hset => ?_⟩
  · rw [step_serving, decode_reservedOpcode hreserved]
    rfl
  · exact step_refused_of_decode_ne_ok fun i hi => hzero (decode_request_ok hi).1
  · exact step_refused_of_decode_ne_ok fun i hi => (decode_request_ok hi).2 hset

/-- Settles O4: every line of the table is evaluated. -/
theorem workedEncodings : Obligations.WorkedEncodings := by
  unfold Obligations.WorkedEncodings
  decide

/-- Settles O5: both names are the first token of their line, and both are looked up as the resampler. -/
theorem resampleNamesTheSameOperation : Obligations.ResampleNamesTheSameOperation := by
  intro operands
  have hshort : tokens ("resample ".toList ++ operands) [] = "resample".toList :: tokens operands [] :=
    tokens_word_blank (w := "resample".toList) (by decide) (by decide) operands
  have hname : tokens ("resample_pcm16 ".toList ++ operands) [] = "resample_pcm16".toList :: tokens operands [] :=
    tokens_word_blank (w := "resample_pcm16".toList) (by decide) (by decide) operands
  exact parseLine_congr_name hshort hname (by decide) (by decide) (by decide)

/-- Settles O6: the first three clauses are `step_serving`, the second after `step_idle` has taken the request. -/
theorem stepRunsDecodedInstruction : Obligations.StepRunsDecodedInstruction := by
  refine ⟨fun s r i h => ?_, fun s r rest i hidle hprogram h => ?_, fun s r e h => ?_, fun s hidle hprogram => ?_⟩
  · rw [step_serving, h]
  · have hstep : step s = step (serving { s with program := rest } r) := by rw [step_idle hidle, hprogram]
    rw [hstep, step_serving, h]
    rfl
  · rw [step_serving, h]
  · rw [step_idle hidle, hprogram]

end Sys2Proof.Machine
end

section
/-! PROOFS. The segment search and the quantisation cells of the two laws (40_codec_sample.md R60, R61, R63): every
magnitude is in one cell, and the last steps of an encoder read off which. -/

namespace Sys2Proof.Machine

/-! ### The segment search (R60) -/

/-- `SEG_END` as integers, by its closed form (R12). -/
def thresholds : List Int := (List.range 8).map fun i => 2 ^ (i + 8) - 1

theorem segmentIndex_eq_findIdx (m : Int) : segmentIndex m = thresholds.findIdx fun t => decide (m ≤ t) := rfl

theorem thresholds_getElem {i : Nat} (h : i < thresholds.length) : thresholds[i] = 2 ^ (i + 8) - 1 := by
  simp [thresholds]

theorem segmentIndex_le_eight (m : Int) : segmentIndex m ≤ 8 := List.findIdx_le_length

theorem threshold_lt_of_lt_segmentIndex {m : Int} {i : Nat} (h : i < segmentIndex m) : 2 ^ (i + 8) - 1 < m := by
  rw [segmentIndex_eq_findIdx] at h
  have hbelow := List.not_of_lt_findIdx h
  rw [thresholds_getElem] at hbelow
  exact not_le.mp (of_decide_eq_false hbelow)

theorem le_threshold_of_segmentIndex_lt {m : Int} (h : segmentIndex m < 8) : m ≤ 2 ^ (segmentIndex m + 8) - 1 := by
  rw [segmentIndex_eq_findIdx] at h ⊢
  have hfound := List.findIdx_getElem (w := h)
  rw [← thresholds_getElem h]
  exact of_decide_eq_true hfound

/-- Segment `g` holds the values from `2^(g+7)` (segment 0: all values) to below `2^(g+8)`. -/
theorem segmentIndex_eq {m : Int} {g : Nat} (hg : g < 8) (hlow : 0 < g → 2 ^ (g + 7) ≤ m) (hhigh : m < 2 ^ (g + 8)) :
    segmentIndex m = g := by
  rcases lt_trichotomy (segmentIndex m) g with hlt | heq | hgt
  · have hle := le_threshold_of_segmentIndex_lt (hlt.trans hg)
    have hpow : (2 : Int) ^ (segmentIndex m + 8) ≤ 2 ^ (g + 7) := pow_le_pow_right₀ (by decide) (by omega)
    have := hlow (by omega)
    omega
  · exact heq
  · have := threshold_lt_of_lt_segmentIndex hgt
    omega

/-! ### The quantisation cells (R61, R63) -/

theorem inAlawCell_zero {q : Nat} {m : Int} : inAlawCell 0 q m ↔ 16 * q ≤ m ∧ m ≤ 16 * q + 15 := by
  simp [inAlawCell]

/-- Above segment 0 the two laws have the same cells. -/
theorem inAlawCell_pos {g q : Nat} {m : Int} (hg : 0 < g) : inAlawCell g q m ↔ inUlawCell g q m := by
  rw [inAlawCell, inUlawCell]
  split_ifs
  · obtain rfl : g = 1 := by omega
    omega
  · rfl

/-- The cells of a segment lie within it. -/
theorem segment_of_inUlawCell {g q : Nat} {m : Int} (hq : q < 16) (h : inUlawCell g q m) :
    2 ^ (g + 7) ≤ m ∧ m < 2 ^ (g + 8) := by
  obtain ⟨hlow, hhigh⟩ := h
  have hpos : (0 : Int) < 2 ^ (g + 3) := by positivity
  have hq' : (q : Int) ≤ 15 := by omega
  have h7 : (2 : Int) ^ (g + 7) = 16 * 2 ^ (g + 3) := by ring
  have h8 : (2 : Int) ^ (g + 8) = 32 * 2 ^ (g + 3) := by ring
  constructor <;> nlinarith

theorem segment_of_inAlawCell {g q : Nat} {m : Int} (hq : q < 16) (h : inAlawCell g q m) :
    (0 < g → 2 ^ (g + 7) ≤ m) ∧ m < 2 ^ (g + 8) := by
  rcases g.eq_zero_or_pos with rfl | hg
  · rw [inAlawCell_zero] at h
    omega
  · obtain ⟨hlow, hhigh⟩ := segment_of_inUlawCell hq ((inAlawCell_pos hg).mp h)
    exact ⟨fun _ => hlow, hhigh⟩

/-- The cell is read off the leading bits. -/
theorem div_of_inUlawCell {g q : Nat} {m : Int} (h : inUlawCell g q m) : m / 2 ^ (g + 3) = 16 + q := by
  obtain ⟨hlow, hhigh⟩ := h
  rw [Int.ediv_eq_iff_of_pos (by positivity)]
  constructor <;> linarith

theorem segmentIndex_of_inUlawCell {g q : Nat} {m : Int} (hg : g < 8) (hq : q < 16) (h : inUlawCell g q m) :
    segmentIndex m = g := by
  obtain ⟨hlow, hhigh⟩ := segment_of_inUlawCell hq h
  exact segmentIndex_eq hg (fun _ => hlow) hhigh

theorem segmentIndex_of_inAlawCell {g q : Nat} {m : Int} (hg : g < 8) (hq : q < 16) (h : inAlawCell g q m) :
    segmentIndex m = g := by
  obtain ⟨hlow, hhigh⟩ := segment_of_inAlawCell hq h
  exact segmentIndex_eq hg hlow hhigh

/-- Different cells are disjoint. -/
theorem inUlawCell_unique {g q g' q' : Nat} {m : Int} (hg : g < 8) (hq : q < 16) (hg' : g' < 8) (hq' : q' < 16)
    (h : inUlawCell g q m) (h' : inUlawCell g' q' m) : g = g' ∧ q = q' := by
  obtain rfl : g = g' := by rw [← segmentIndex_of_inUlawCell hg hq h, segmentIndex_of_inUlawCell hg' hq' h']
  have hdiv := (div_of_inUlawCell h).symm.trans (div_of_inUlawCell h')
  exact ⟨rfl, by omega⟩

/-- The last threshold is in the last cell. -/
theorem inUlawCell_last {g q : Nat} (hg : g < 8) (hq : q < 16) (h : inUlawCell g q 32767) : g = 7 ∧ q = 15 :=
  inUlawCell_unique hg hq (by decide) (by decide) h (by norm_num [inUlawCell])

theorem inAlawCell_unique {g q g' q' : Nat} {m : Int} (hg : g < 8) (hq : q < 16) (hg' : g' < 8) (hq' : q' < 16)
    (h : inAlawCell g q m) (h' : inAlawCell g' q' m) : g = g' ∧ q = q' := by
  obtain rfl : g = g' := by rw [← segmentIndex_of_inAlawCell hg hq h, segmentIndex_of_inAlawCell hg' hq' h']
  rcases g.eq_zero_or_pos with rfl | hpos
  · rw [inAlawCell_zero] at h h'
    omega
  · rw [inAlawCell_pos hpos] at h h'
    exact inUlawCell_unique hg hq hg hq' h h'

/-- A cell is an interval. -/
theorem inUlawCell_between {g q : Nat} {a b m : Int} (ha : inUlawCell g q a) (hb : inUlawCell g q b) (ham : a ≤ m)
    (hmb : m ≤ b) : inUlawCell g q m := ⟨ha.1.trans ham, hmb.trans hb.2⟩

theorem inAlawCell_between {g q : Nat} {a b m : Int} (ha : inAlawCell g q a) (hb : inAlawCell g q b) (ham : a ≤ m)
    (hmb : m ≤ b) : inAlawCell g q m := by
  rcases g.eq_zero_or_pos with rfl | hpos
  · rw [inAlawCell_zero] at *
    omega
  · rw [inAlawCell_pos hpos] at *
    exact inUlawCell_between ha hb ham hmb

/-- Every biased magnitude within the last threshold lies in a cell. -/
theorem exists_inUlawCell {m : Int} (hlow : 128 ≤ m) (hhigh : m ≤ 32767) :
    ∃ g < 8, ∃ q < 16, inUlawCell g q m := by
  have hg : segmentIndex m < 8 := by
    by_contra hge
    have := threshold_lt_of_lt_segmentIndex (m := m) (i := 7) (by omega)
    omega
  have hend := le_threshold_of_segmentIndex_lt hg
  have hstart : 2 ^ (segmentIndex m + 7) ≤ m := by
    rcases (segmentIndex m).eq_zero_or_pos with hzero | hpos
    · simpa [hzero] using hlow
    · have := threshold_lt_of_lt_segmentIndex (m := m) (i := segmentIndex m - 1) (by omega)
      rw [show segmentIndex m - 1 + 8 = segmentIndex m + 7 by omega] at this
      omega
  generalize segmentIndex m = g at *
  refine ⟨g, hg, (m / 2 ^ (g + 3) - 16).toNat, ?_⟩
  unfold inUlawCell
  interval_cases g <;> omega

theorem exists_inAlawCell {m : Int} (hlow : 0 ≤ m) (hhigh : m ≤ 32767) : ∃ g < 8, ∃ q < 16, inAlawCell g q m := by
  by_cases hsmall : m < 256
  · exact ⟨0, by decide, (m / 16).toNat, by omega, inAlawCell_zero.mpr (by omega)⟩
  · obtain ⟨g, hg, q, hq, h⟩ := exists_inUlawCell (by omega) hhigh
    have hpos : 0 < g := by
      rcases g.eq_zero_or_pos with rfl | hpos
      · have := (segment_of_inUlawCell hq h).2
        omega
      · exact hpos
    exact ⟨g, hg, q, hq, (inAlawCell_pos hpos).mpr h⟩

/-! ### The last steps of the encoders -/

theorem and_quantMask (n : Nat) : n &&& quantMask = n % 16 := Nat.and_two_pow_sub_one_eq_mod n 4

theorem segment_or_quant {g q : Nat} (hq : q < 16) : g <<< segShift ||| q = 16 * g + q := by
  rw [segShift, ← Nat.shiftLeft_add_eq_or_of_lt hq, Nat.shiftLeft_eq]
  omega

/-- The four bits below the leading one of a biased magnitude. -/
theorem quant_of_inUlawCell {g q m : Nat} (hq : q < 16) (h : inUlawCell g q m) :
    m >>> (g + 3) &&& quantMask = q := by
  have hdiv : m / 2 ^ (g + 3) = 16 + q := by exact_mod_cast div_of_inUlawCell h
  rw [and_quantMask, Nat.shiftRight_eq_div_pow, hdiv]
  omega

theorem ulawCode_of_cell {g q m : Nat} (mask : Nat) (hg : g < 8) (hq : q < 16) (h : inUlawCell g q m) :
    ulawCode m mask = BitVec.ofNat 8 ((16 * g + q) ^^^ mask) := by
  have hseg := segmentIndex_of_inUlawCell hg hq h
  simp only [ulawCode, hseg, quant_of_inUlawCell hq h, segment_or_quant hq, Nat.not_le.mpr hg, if_false]

/-- A biased magnitude over the last threshold has no segment. -/
theorem ulawCode_of_clamp {m : Nat} (mask : Nat) (h : 32767 < m) :
    ulawCode m mask = BitVec.ofNat 8 (clamp ^^^ mask) := by
  have hseg : 8 ≤ segmentIndex m := by
    by_contra hlt
    have hle := le_threshold_of_segmentIndex_lt (not_le.mp hlt)
    have hpow : (2 : Int) ^ (segmentIndex m + 8) ≤ 2 ^ 15 := pow_le_pow_right₀ (by decide) (by omega)
    omega
  simp only [ulawCode, hseg, if_true]

theorem alawCode_of_cell {g q m : Nat} (mask : Nat) (hg : g < 8) (hq : q < 16) (h : inAlawCell g q m) :
    alawCode m mask = BitVec.ofNat 8 ((16 * g + q) ^^^ mask) := by
  have hseg := segmentIndex_of_inAlawCell hg hq h
  have hquant : (if g < 2 then m >>> 4 &&& quantMask else m >>> (g + 3) &&& quantMask) = q := by
    rcases g.eq_zero_or_pos with rfl | hpos
    · rw [inAlawCell_zero] at h
      rw [if_pos (by decide), and_quantMask, Nat.shiftRight_eq_div_pow]
      omega
    · rw [← quant_of_inUlawCell hq ((inAlawCell_pos hpos).mp h)]
      split_ifs
      · obtain rfl : g = 1 := by omega
        rfl
      · rfl
  simp only [alawCode, hseg, hquant, segment_or_quant hq, Nat.not_le.mpr hg, if_false]

end Sys2Proof.Machine
end

section
/-! PROOFS. The per-sample codecs by the fields of a code (40_codec_sample.md R61 to R64, 30_encoding.md R41): the
sign, the segment and the quantisation field, what the encoders make them of, and the value the decoders give them. -/

namespace Sys2Proof.Machine

/-! ### Codes by their fields (30_encoding.md R41) -/

/-- The byte with a given bit 7, segment field and quantisation field. -/
def fieldByte (bit7 : Bool) (g q : Nat) : Byte := BitVec.ofNat 8 (128 * bit7.toNat + (16 * g + q))

/-- The A-law code of a sign, a segment and a quantisation field. -/
def alawByte (pos : Bool) (g q : Nat) : Byte := fieldByte pos g q ^^^ 0x55

/-- The µ-law code of a sign, a segment and a quantisation field. -/
def ulawByte (pos : Bool) (g q : Nat) : Byte := ~~~fieldByte (!pos) g q

/-- A mask applied twice is undone. -/
theorem xor_mask_mask (v mask : Byte) : v ^^^ mask ^^^ mask = v := by
  rw [BitVec.xor_assoc, BitVec.xor_self, BitVec.xor_zero]

@[simp] theorem alawByte_xor (pos : Bool) (g q : Nat) : alawByte pos g q ^^^ 0x55 = fieldByte pos g q :=
  xor_mask_mask _ _

@[simp] theorem not_ulawByte (pos : Bool) (g q : Nat) : ~~~ulawByte pos g q = fieldByte (!pos) g q := BitVec.not_not

/-- Every byte is given by its fields. -/
theorem exists_fieldByte (v : Byte) : ∃ bit7, ∃ g < 8, ∃ q < 16, v = fieldByte bit7 g q := by
  refine ⟨decide (128 ≤ v.toNat), v.toNat / 16 % 8, by omega, v.toNat % 16, by omega, BitVec.eq_of_toNat_eq ?_⟩
  have hv := v.isLt
  rw [fieldByte, BitVec.toNat_ofNat]
  by_cases h : 128 ≤ v.toNat
  · simp [h]
    omega
  · simp [h]
    omega

theorem exists_alawByte (code : Byte) : ∃ pos, ∃ g < 8, ∃ q < 16, code = alawByte pos g q := by
  obtain ⟨pos, g, hg, q, hq, h⟩ := exists_fieldByte (code ^^^ 0x55)
  exact ⟨pos, g, hg, q, hq, by rw [alawByte, ← h, xor_mask_mask]⟩

theorem exists_ulawByte (code : Byte) : ∃ pos, ∃ g < 8, ∃ q < 16, code = ulawByte pos g q := by
  obtain ⟨bit7, g, hg, q, hq, h⟩ := exists_fieldByte (~~~code)
  exact ⟨!bit7, g, hg, q, hq, by rw [ulawByte, Bool.not_not, ← h, BitVec.not_not]⟩

theorem ofNat_xor_mask (g q mask : Nat) :
    BitVec.ofNat 8 ((16 * g + q) ^^^ mask) = fieldByte false g q ^^^ BitVec.ofNat 8 mask := by
  rw [BitVec.ofNat_xor, fieldByte, Bool.toNat_false, Nat.mul_zero, Nat.zero_add]

theorem bit7_iff_msb (v : Byte) : 128 ≤ v.toNat ↔ v.msb = true := by
  rw [BitVec.msb_eq_decide, decide_eq_true_iff]

section
variable {g q : Nat} (hg : g < 8) (hq : q < 16) (bit7 pos : Bool)
include hg hq

theorem fieldByte_toNat : (fieldByte bit7 g q).toNat = 128 * bit7.toNat + (16 * g + q) := by
  have := bit7.toNat_le
  rw [fieldByte, BitVec.toNat_ofNat]
  omega

theorem segField_fieldByte : segField (fieldByte bit7 g q) = g := by
  rw [segField, fieldByte_toNat hg hq]
  omega

theorem quantField_fieldByte : quantField (fieldByte bit7 g q) = q := by
  rw [quantField, fieldByte_toNat hg hq]
  omega

theorem fieldByte_bit7 : 128 ≤ (fieldByte bit7 g q).toNat ↔ bit7 = true := by
  rw [fieldByte_toNat hg hq]
  cases bit7
  · simp
    omega
  · simp

theorem fieldByte_true : fieldByte true g q = fieldByte false g q ^^^ 0x80 := by
  have hbit : ∀ n < 128, 128 + n = n ^^^ 0x80 := by decide
  apply BitVec.eq_of_toNat_eq
  rw [BitVec.toNat_xor, fieldByte_toNat hg hq, fieldByte_toNat hg hq]
  simpa using hbit (16 * g + q) (by omega)

/-- Turning bit 7 over turns the sign over. -/
theorem fieldByte_xor_signBit : fieldByte bit7 g q ^^^ 0x80 = fieldByte (!bit7) g q := by
  cases bit7
  · exact (fieldByte_true hg hq).symm
  · rw [fieldByte_true hg hq, xor_mask_mask]
    rfl

theorem alawByte_xor_signBit : alawByte pos g q ^^^ 0x80 = alawByte (!pos) g q := by
  rw [alawByte, BitVec.xor_assoc, BitVec.xor_comm 0x55, ← BitVec.xor_assoc, fieldByte_xor_signBit hg hq, alawByte]

theorem ulawByte_xor_signBit : ulawByte pos g q ^^^ 0x80 = ulawByte (!pos) g q := by
  rw [ulawByte, ← BitVec.not_xor_left, fieldByte_xor_signBit hg hq, ulawByte]

/-- Bit 7 of a code is set for the positive sign, in both laws. -/
theorem alawByte_sign : 128 ≤ (alawByte pos g q).toNat ↔ pos = true := by
  rw [← fieldByte_bit7 hg hq pos, alawByte, bit7_iff_msb, bit7_iff_msb, BitVec.msb_xor]
  exact iff_of_eq (congrArg (· = true) (Bool.xor_false _))

theorem ulawByte_sign : 128 ≤ (ulawByte pos g q).toNat ↔ pos = true := by
  have h := fieldByte_bit7 hg hq (!pos)
  rw [bit7_iff_msb] at h ⊢
  cases pos <;> simpa [ulawByte] using h

/-- The masks of the encoders write the sign into a code. -/
theorem ofNat_xor_aMask :
    BitVec.ofNat 8 ((16 * g + q) ^^^ if pos then aMaskPos else aMaskNeg) = alawByte pos g q := by
  rw [ofNat_xor_mask, alawByte]
  cases pos
  · rfl
  · rw [fieldByte_true hg hq, BitVec.xor_assoc]
    rfl

theorem ofNat_xor_uMask :
    BitVec.ofNat 8 ((16 * g + q) ^^^ if pos then uMaskPos else uMaskNeg) = ulawByte pos g q := by
  rw [ofNat_xor_mask, ulawByte, ← BitVec.xor_allOnes]
  cases pos
  · rw [Bool.not_false, fieldByte_true hg hq, BitVec.xor_assoc]
    rfl
  · rfl

end

/-! ### The encoders by cells (R61, R63) -/

theorem encodeAlaw_of_nonneg {x : Int} {g q : Nat} (hg : g < 8) (hq : q < 16) (hx : 0 ≤ x) (h : inAlawCell g q x) :
    encodeAlaw x = alawByte true g q := by
  rw [← Int.toNat_of_nonneg hx] at h
  rw [encodeAlaw, if_pos hx, alawCode_of_cell _ hg hq h]
  exact ofNat_xor_aMask hg hq true

theorem encodeAlaw_of_neg {x : Int} {g q : Nat} (hg : g < 8) (hq : q < 16) (hx : x < -8)
    (h : inAlawCell g q (-x - 8)) : encodeAlaw x = alawByte false g q := by
  rw [← Int.toNat_of_nonneg (show 0 ≤ -x - 8 by omega)] at h
  rw [encodeAlaw, if_neg (by omega), if_pos (show x < -(aNegOffset : Int) from hx)]
  exact (alawCode_of_cell _ hg hq h).trans (ofNat_xor_aMask hg hq false)

theorem encodeAlaw_of_band {x : Int} (hlow : -8 ≤ x) (hhigh : x ≤ -1) : encodeAlaw x = alawByte true 0 0 := by
  rw [encodeAlaw, if_neg (by omega), if_neg (show ¬x < -(aNegOffset : Int) from not_lt.mpr hlow)]
  rfl

/-- Everything that `encode_alaw` can do: a cell of either sign, or the band -8 to -1. -/
theorem encodeAlaw_cases {x : Int} (hlow : -32768 ≤ x) (hhigh : x ≤ 32767) :
    (0 ≤ x ∧ ∃ g < 8, ∃ q < 16, inAlawCell g q x ∧ encodeAlaw x = alawByte true g q) ∨
    (-8 ≤ x ∧ x ≤ -1 ∧ encodeAlaw x = alawByte true 0 0) ∨
    (x < -8 ∧ ∃ g < 8, ∃ q < 16, inAlawCell g q (-x - 8) ∧ encodeAlaw x = alawByte false g q) := by
  by_cases hpos : 0 ≤ x
  · obtain ⟨g, hg, q, hq, h⟩ := exists_inAlawCell hpos hhigh
    exact .inl ⟨hpos, g, hg, q, hq, h, encodeAlaw_of_nonneg hg hq hpos h⟩
  by_cases hband : -8 ≤ x
  · exact .inr (.inl ⟨hband, by omega, encodeAlaw_of_band hband (by omega)⟩)
  · obtain ⟨g, hg, q, hq, h⟩ := exists_inAlawCell (m := -x - 8) (by omega) (by omega)
    exact .inr (.inr ⟨by omega, g, hg, q, hq, h, encodeAlaw_of_neg hg hq (by omega) h⟩)

/-- The biased magnitude of a sample, not over the last threshold: the clamp of R63 is the code of that threshold. -/
def clampedMagnitude (x : Int) : Int := min (|x| + 132) 32767

theorem encodeUlaw_eq_ulawCode (x : Int) :
    encodeUlaw x = ulawCode (|x| + 132).toNat (if decide (0 ≤ x) then uMaskPos else uMaskNeg) := by
  rw [encodeUlaw]
  by_cases hx : 0 ≤ x
  · rw [if_neg (by omega), abs_of_nonneg hx, decide_eq_true hx]
    rfl
  · rw [if_pos (by omega), abs_of_neg (by omega), decide_eq_false hx, neg_add_eq_sub]
    rfl

theorem encodeUlaw_of_cell {x : Int} {g q : Nat} (hg : g < 8) (hq : q < 16)
    (h : inUlawCell g q (clampedMagnitude x)) : encodeUlaw x = ulawByte (decide (0 ≤ x)) g q := by
  rw [encodeUlaw_eq_ulawCode, ← ofNat_xor_uMask hg hq]
  have hm : ((|x| + 132).toNat : Int) = |x| + 132 := Int.toNat_of_nonneg (by positivity)
  by_cases hclamp : |x| + 132 ≤ 32767
  · rw [clampedMagnitude, min_eq_left hclamp, ← hm] at h
    exact ulawCode_of_cell _ hg hq h
  · rw [clampedMagnitude, min_eq_right (by omega)] at h
    obtain ⟨rfl, rfl⟩ := inUlawCell_last hg hq h
    exact ulawCode_of_clamp _ (by omega)

/-- The sign and the cell of a sample are its µ-law code. -/
theorem encodeUlaw_cases (x : Int) :
    ∃ g < 8, ∃ q < 16, inUlawCell g q (clampedMagnitude x) ∧ encodeUlaw x = ulawByte (decide (0 ≤ x)) g q := by
  have hbias : 128 ≤ clampedMagnitude x := by
    have := abs_nonneg x
    rw [clampedMagnitude]
    omega
  obtain ⟨g, hg, q, hq, h⟩ := exists_inUlawCell hbias (min_le_right _ _)
  exact ⟨g, hg, q, hq, h, encodeUlaw_of_cell hg hq h⟩

/-! ### The decoders by fields (R62, R64) -/

/-- The reconstruction value of an A-law segment and quantisation field (R62). -/
def alawValue (g q : Nat) : Int := if g = 0 then 16 * q + 8 else (16 * q + 264) * 2 ^ (g - 1)

/-- The reconstruction value of a µ-law segment and quantisation field before the bias is taken off (R64). -/
def ulawValue (g q : Nat) : Int := (8 * q + 132) * 2 ^ g

theorem segMask_shift (v : Nat) : (v &&& segMask) >>> segShift = v / 16 % 8 := by
  rw [Nat.shiftRight_and_distrib, Nat.shiftRight_eq_div_pow]
  exact Nat.and_two_pow_sub_one_eq_mod _ 3

theorem and_signBit (v : Byte) : v.toNat &&& signBit ≠ 0 ↔ 128 ≤ v.toNat := by
  have hbit : v.toNat &&& signBit = (v.toNat.testBit 7).toNat * 2 ^ 7 := Nat.and_two_pow v.toNat 7
  have hv := v.isLt
  rw [hbit, Nat.testBit_eq_decide_div_mod_eq]
  by_cases h : 128 ≤ v.toNat
  · simp [h, show v.toNat / 128 % 2 = 1 by omega]
  · simp [h, show v.toNat / 128 % 2 ≠ 1 by omega]

/-- The A-law magnitude as it is computed. -/
theorem alawValue_eq (g q : Nat) : alawValue g q =
    ((if g = 0 then q <<< 4 + aDecAdd0
      else if g = 1 then q <<< 4 + aDecAdd1
      else (q <<< 4 + aDecAdd1) <<< (g - 1) : Nat) : Int) := by
  simp only [alawValue, Nat.shiftLeft_eq, aDecAdd0, aDecAdd1]
  split_ifs with h₀ h₁
  · push_cast
    ring
  · subst h₁
    push_cast
    ring
  · push_cast
    ring

/-- The A-law magnitude as R62 writes it. -/
theorem alawValue_by_segment (g q : Nat) : alawValue g q =
    if g = 0 then 16 * (q : Int) + 8
    else if g = 1 then 16 * (q : Int) + 0x108
    else (16 * (q : Int) + 0x108) * 2 ^ (g - 1) := by
  rw [alawValue]
  split_ifs with h₀ h₁
  · rfl
  · rw [h₁, Nat.sub_self, pow_zero, mul_one]
  · rfl

/-- What `ALAW_DEC_NEG` makes of a magnitude on the negative half (R62). -/
def alawNegativeHalf (neg : AlawDecNeg) (magnitude : Int) : Int :=
  match neg with
  | .zero => 0
  | .negate => -magnitude

theorem decodeAlaw_alawByte (neg : AlawDecNeg) (pos : Bool) {g q : Nat} (hg : g < 8) (hq : q < 16) :
    decodeAlaw neg (alawByte pos g q) =
      if pos then alawValue g q else alawNegativeHalf neg (alawValue g q) := by
  have hv : (alawByte pos g q).toNat ^^^ aMaskNeg = (fieldByte pos g q).toNat :=
    congrArg BitVec.toNat (alawByte_xor pos g q)
  have hseg := segField_fieldByte hg hq pos
  have hquant := quantField_fieldByte hg hq pos
  rw [segField] at hseg
  rw [quantField] at hquant
  simp only [decodeAlaw, hv, and_signBit, fieldByte_bit7 hg hq, and_quantMask, segMask_shift, hseg, hquant,
    ← alawValue_eq]
  rfl

section
variable {g q : Nat} (hg : g < 8) (hq : q < 16)
include hg hq

theorem decodeAlaw_pos (neg : AlawDecNeg) : decodeAlaw neg (alawByte true g q) = alawValue g q :=
  decodeAlaw_alawByte neg true hg hq

theorem decodeAlaw_negate : decodeAlaw .negate (alawByte false g q) = -alawValue g q :=
  decodeAlaw_alawByte .negate false hg hq

theorem decodeAlaw_zero : decodeAlaw .zero (alawByte false g q) = 0 := decodeAlaw_alawByte .zero false hg hq

end

theorem decodeUlaw_ulawByte (pos : Bool) {g q : Nat} (hg : g < 8) (hq : q < 16) :
    decodeUlaw (ulawByte pos g q) = if pos then ulawValue g q - 132 else 132 - ulawValue g q := by
  have hv : (ulawByte pos g q).toNat ^^^ 0xFF = (fieldByte (!pos) g q).toNat := by
    rw [← not_ulawByte, ← BitVec.xor_allOnes, BitVec.toNat_xor]
    rfl
  have hseg := segField_fieldByte hg hq (!pos)
  have hquant := quantField_fieldByte hg hq (!pos)
  rw [segField] at hseg
  rw [quantField] at hquant
  simp only [decodeUlaw, hv, and_signBit, fieldByte_bit7 hg hq, and_quantMask, segMask_shift, hseg, hquant,
    ulawValue, bias]
  cases pos <;> simp [Nat.shiftLeft_eq] <;> ring

section
variable {g q : Nat} (hg : g < 8) (hq : q < 16)
include hg hq

theorem decodeUlaw_pos : decodeUlaw (ulawByte true g q) = ulawValue g q - 132 := decodeUlaw_ulawByte true hg hq

theorem decodeUlaw_neg : decodeUlaw (ulawByte false g q) = 132 - ulawValue g q := decodeUlaw_ulawByte false hg hq

end

/-! ### Reconstruction values and cells (R65, R66) -/

/-- Above segment 0 the two laws reconstruct the same values. -/
theorem alawValue_pos {g : Nat} (q : Nat) (hg : 0 < g) : alawValue g q = ulawValue g q := by
  obtain ⟨k, rfl⟩ := Nat.exists_eq_add_of_lt hg
  simp only [alawValue, ulawValue, Nat.zero_add, Nat.succ_ne_zero, if_false, Nat.add_sub_cancel]
  ring

theorem alawValue_zero (q : Nat) : alawValue 0 q = 16 * q + 8 := rfl

/-- A µ-law value is the middle of its cell. -/
theorem ulawValue_eq_middle (g q : Nat) : ulawValue g q = (16 + q) * 2 ^ (g + 3) + 2 ^ (g + 2) := by
  rw [ulawValue]
  ring

/-- Any value less than half a step above or below the middle is in the cell. -/
theorem inUlawCell_middle_add {g q : Nat} {d : Int} (hlow : -2 ^ (g + 2) ≤ d) (hhigh : d < 2 ^ (g + 2)) :
    inUlawCell g q (ulawValue g q + d) := by
  have hstep : (2 : Int) ^ (g + 3) = 2 * 2 ^ (g + 2) := by ring
  rw [ulawValue_eq_middle, inUlawCell]
  constructor <;> linarith

theorem ulawValue_in_cell (g q : Nat) : inUlawCell g q (ulawValue g q) := by
  have hpos : (0 : Int) < 2 ^ (g + 2) := by positivity
  have h := inUlawCell_middle_add (g := g) (q := q) (d := 0) (by omega) hpos
  rwa [add_zero] at h

theorem alawValue_in_cell (g q : Nat) : inAlawCell g q (alawValue g q) := by
  rcases g.eq_zero_or_pos with rfl | hg
  · rw [inAlawCell_zero, alawValue_zero]
    omega
  · rw [inAlawCell_pos hg, alawValue_pos q hg]
    exact ulawValue_in_cell g q

/-- The step of an A-law segment (R66). -/
def alawStep (g : Nat) : Int := if g < 2 then 16 else 2 ^ (g + 3)

theorem alawStep_zero : alawStep 0 = 16 := rfl

/-- Above segment 0 the two laws have the same step. -/
theorem alawStep_pos {g : Nat} (hg : 0 < g) : alawStep g = 2 ^ (g + 3) := by
  rw [alawStep]
  split_ifs
  · obtain rfl : g = 1 := by omega
    rfl
  · rfl

theorem sixteen_le_alawStep (g : Nat) : 16 ≤ alawStep g := by
  rcases g.eq_zero_or_pos with rfl | hg
  · exact alawStep_zero.ge
  · rw [alawStep_pos hg]
    exact (pow_le_pow_right₀ (by decide) (by omega) : (2 : Int) ^ 4 ≤ 2 ^ (g + 3))

/-- A magnitude is at most half a step below the value of its cell, and less than that above it. -/
theorem ulawValue_dist {g q : Nat} {m : Int} (h : inUlawCell g q m) :
    -2 ^ (g + 3) ≤ 2 * (m - ulawValue g q) ∧ 2 * (m - ulawValue g q) ≤ 2 ^ (g + 3) - 2 := by
  obtain ⟨hlow, hhigh⟩ := h
  have hstep : (2 : Int) ^ (g + 3) = 2 * 2 ^ (g + 2) := by ring
  rw [ulawValue_eq_middle]
  constructor <;> linarith

theorem alawValue_dist {g q : Nat} {m : Int} (h : inAlawCell g q m) :
    -alawStep g ≤ 2 * (m - alawValue g q) ∧ 2 * (m - alawValue g q) ≤ alawStep g - 2 := by
  rcases g.eq_zero_or_pos with rfl | hg
  · rw [inAlawCell_zero] at h
    rw [alawValue_zero, alawStep_zero]
    omega
  · rw [alawValue_pos q hg, alawStep_pos hg]
    exact ulawValue_dist ((inAlawCell_pos hg).mp h)

/-- A distance bounded on either side, as an error. -/
theorem two_mul_abs_sub_le {m y step : Int} (hlow : -step ≤ 2 * (m - y)) (hhigh : 2 * (m - y) ≤ step) :
    2 * |y - m| ≤ step := by
  rcases abs_cases (y - m) with ⟨habs, -⟩ | ⟨habs, -⟩ <;> omega

theorem ulawValue_range {g q : Nat} (hg : g < 8) (hq : q < 16) : 132 ≤ ulawValue g q ∧ ulawValue g q ≤ 32256 := by
  have hlow : (1 : Int) ≤ 2 ^ g := one_le_pow₀ (by decide)
  have hhigh : (2 : Int) ^ g ≤ 2 ^ 7 := pow_le_pow_right₀ (by decide) (by omega)
  rw [ulawValue]
  constructor <;> nlinarith

theorem alawValue_range {g q : Nat} (hg : g < 8) (hq : q < 16) : 8 ≤ alawValue g q ∧ alawValue g q ≤ 32256 := by
  rcases g.eq_zero_or_pos with rfl | hpos
  · rw [alawValue_zero]
    omega
  · have := ulawValue_range hg hq
    rw [alawValue_pos q hpos]
    omega

/-- Only the first µ-law value is the bias. -/
theorem ulawValue_eq_bias {g q : Nat} (h : ulawValue g q ≤ 132) : g = 0 ∧ q = 0 := by
  rcases g.eq_zero_or_pos with rfl | hg
  · rw [ulawValue] at h
    omega
  · have hpow : (2 : Int) ^ 1 ≤ 2 ^ g := pow_le_pow_right₀ (by decide) hg
    rw [ulawValue] at h
    nlinarith

/-- Only the first A-law value is the offset of the negative half. -/
theorem alawValue_eq_eight {g q : Nat} (hg : g < 8) (hq : q < 16) (h : alawValue g q = 8) : g = 0 ∧ q = 0 := by
  rcases g.eq_zero_or_pos with rfl | hpos
  · rw [alawValue_zero] at h
    omega
  · have := ulawValue_range hg hq
    rw [alawValue_pos q hpos] at h
    omega

/-- Eight below an A-law value is in the same cell, except below the first value. -/
theorem alawValue_sub_eight {g q : Nat} (h : alawValue g q ≠ 8) : inAlawCell g q (alawValue g q - 8) := by
  rcases g.eq_zero_or_pos with rfl | hg
  · rw [alawValue_zero] at h ⊢
    rw [inAlawCell_zero]
    omega
  · rw [inAlawCell_pos hg, alawValue_pos q hg]
    have hpow : (2 : Int) ^ 3 ≤ 2 ^ (g + 2) := pow_le_pow_right₀ (by decide) (by omega)
    exact inUlawCell_middle_add (g := g) (d := -8) (by omega) (by omega)

/-- Two intervals that are disjoint or give the same value keep the order of their members in that of their values. -/
theorem value_le_of_le {P P' : Int → Prop} {m m' y y' : Int}
    (hP : ∀ {a b n}, P a → P b → a ≤ n → n ≤ b → P n) (hP' : ∀ {a b n}, P' a → P' b → a ≤ n → n ≤ b → P' n)
    (hsame : ∀ n, P n → P' n → y = y') (hm : P m) (hy : P y) (hm' : P' m') (hy' : P' y') (hle : m ≤ m') : y ≤ y' := by
  by_contra! hlt
  rcases le_total m y' with h | h
  · exact hlt.ne' (hsame y' (hP hm hy h hlt.le) hy')
  · exact hlt.ne' (hsame m hm (hP' hy' hm' h hle))

theorem ulawValue_mono {g q g' q' : Nat} {m m' : Int} (hg : g < 8) (hq : q < 16) (hg' : g' < 8) (hq' : q' < 16)
    (h : inUlawCell g q m) (h' : inUlawCell g' q' m') (hle : m ≤ m') : ulawValue g q ≤ ulawValue g' q' := by
  refine value_le_of_le inUlawCell_between inUlawCell_between (fun n hn hn' => ?_) h (ulawValue_in_cell g q) h'
    (ulawValue_in_cell g' q') hle
  obtain ⟨rfl, rfl⟩ := inUlawCell_unique hg hq hg' hq' hn hn'
  rfl

theorem alawValue_mono {g q g' q' : Nat} {m m' : Int} (hg : g < 8) (hq : q < 16) (hg' : g' < 8) (hq' : q' < 16)
    (h : inAlawCell g q m) (h' : inAlawCell g' q' m') (hle : m ≤ m') : alawValue g q ≤ alawValue g' q' := by
  refine value_le_of_le inAlawCell_between inAlawCell_between (fun n hn hn' => ?_) h (alawValue_in_cell g q) h'
    (alawValue_in_cell g' q') hle
  obtain ⟨rfl, rfl⟩ := inAlawCell_unique hg hq hg' hq' hn hn'
  rfl

end Sys2Proof.Machine
end

section
/-! PROOFS. The statements of 40_codec_sample.md: the four operations (R61 to R64), the cells, and what follows for
encoding and decoding one after the other (R65, R66). -/

namespace Sys2Proof.Machine

/-! ### Round trips (R65, R66) -/

theorem alawStepSize_alawByte (pos : Bool) {g q : Nat} (hg : g < 8) (hq : q < 16) :
    alawStepSize (alawByte pos g q) = alawStep g := by
  simp only [alawStepSize, alawByte_xor, segField_fieldByte hg hq, alawStep]

theorem ulawStepSize_ulawByte (pos : Bool) {g q : Nat} (hg : g < 8) (hq : q < 16) :
    ulawStepSize (ulawByte pos g q) = 2 ^ (g + 3) := by
  rw [ulawStepSize, not_ulawByte, segField_fieldByte hg hq]

/-- The µ-law code of a value with its sign, but for a negative 0. -/
theorem encodeUlaw_of_value {x : Int} {g q : Nat} (hg : g < 8) (hq : q < 16) (h : |x| + 132 = ulawValue g q) :
    encodeUlaw x = ulawByte (decide (0 ≤ x)) g q := by
  have hrange := ulawValue_range hg hq
  have hmag : clampedMagnitude x = ulawValue g q := by
    rw [clampedMagnitude]
    omega
  exact encodeUlaw_of_cell hg hq (hmag ▸ ulawValue_in_cell g q)

/-- Re-encoding in µ-law (R65(f)). -/
theorem encodeUlaw_decodeUlaw (code : Byte) :
    encodeUlaw (decodeUlaw code) = if code = 0x7F then 0xFF else code := by
  split_ifs with hzero
  · subst hzero
    decide
  obtain ⟨pos, g, hg, q, hq, rfl⟩ := exists_ulawByte code
  have hrange := ulawValue_range hg hq
  cases pos with
  | true =>
    have hx : 0 ≤ ulawValue g q - 132 := by omega
    rw [decodeUlaw_pos hg hq, encodeUlaw_of_value hg hq (by rw [abs_of_nonneg hx]; omega), decide_eq_true hx]
  | false =>
    have hx : 132 - ulawValue g q < 0 := by
      by_contra hle
      obtain ⟨rfl, rfl⟩ := ulawValue_eq_bias (g := g) (q := q) (by omega)
      exact hzero rfl
    rw [decodeUlaw_neg hg hq, encodeUlaw_of_value hg hq (by rw [abs_of_neg hx]; omega),
      decide_eq_false (not_le.mpr hx)]

theorem encodeAlaw_decodeAlaw_pos (neg : AlawDecNeg) {g q : Nat} (hg : g < 8) (hq : q < 16) :
    encodeAlaw (decodeAlaw neg (alawByte true g q)) = alawByte true g q := by
  have hrange := alawValue_range hg hq
  rw [decodeAlaw_pos hg hq]
  exact encodeAlaw_of_nonneg hg hq (by omega) (alawValue_in_cell g q)

/-- Re-encoding in A-law under `NEGATE` (R65(f)). -/
theorem encodeAlaw_decodeAlaw_negate (code : Byte) :
    encodeAlaw (decodeAlaw .negate code) = if code = 0x55 then 0xD5 else code := by
  split_ifs with hfirst
  · subst hfirst
    decide
  obtain ⟨pos, g, hg, q, hq, rfl⟩ := exists_alawByte code
  cases pos with
  | true => exact encodeAlaw_decodeAlaw_pos .negate hg hq
  | false =>
    have hne : alawValue g q ≠ 8 := by
      intro heq
      obtain ⟨rfl, rfl⟩ := alawValue_eq_eight hg hq heq
      exact hfirst rfl
    have hrange := alawValue_range hg hq
    rw [decodeAlaw_negate hg hq]
    refine encodeAlaw_of_neg hg hq (by omega) ?_
    rw [neg_neg]
    exact alawValue_sub_eight hne

/-- Re-encoding in A-law under `ZERO` (R65(f)). -/
theorem encodeAlaw_decodeAlaw_zero (code : Byte) :
    encodeAlaw (decodeAlaw .zero code) = if 128 ≤ code.toNat then code else 0xD5 := by
  obtain ⟨pos, g, hg, q, hq, rfl⟩ := exists_alawByte code
  rw [if_congr (alawByte_sign hg hq pos) rfl rfl]
  cases pos with
  | true => exact encodeAlaw_decodeAlaw_pos .zero hg hq
  | false =>
    have hband : encodeAlaw 0 = 0xD5 := by decide
    rw [decodeAlaw_zero hg hq, hband]
    rfl

/-! ### Monotonicity (R65(g)) -/

theorem ulawRoundTrip_mono {x y : Int} (hxy : x ≤ y) : decodeUlaw (encodeUlaw x) ≤ decodeUlaw (encodeUlaw y) := by
  obtain ⟨g, hg, q, hq, hcell, hcode⟩ := encodeUlaw_cases x
  obtain ⟨g', hg', q', hq', hcell', hcode'⟩ := encodeUlaw_cases y
  have hrange := ulawValue_range hg hq
  have hrange' := ulawValue_range hg' hq'
  rw [hcode, hcode']
  by_cases hx : 0 ≤ x
  · have hmag : clampedMagnitude x ≤ clampedMagnitude y := by
      rw [clampedMagnitude, clampedMagnitude, abs_of_nonneg hx, abs_of_nonneg (hx.trans hxy)]
      omega
    have hvalue := ulawValue_mono hg hq hg' hq' hcell hcell' hmag
    rw [decide_eq_true hx, decide_eq_true (hx.trans hxy), decodeUlaw_pos hg hq, decodeUlaw_pos hg' hq']
    omega
  by_cases hy : 0 ≤ y
  · rw [decide_eq_false hx, decide_eq_true hy, decodeUlaw_neg hg hq, decodeUlaw_pos hg' hq']
    omega
  · have hmag : clampedMagnitude y ≤ clampedMagnitude x := by
      rw [clampedMagnitude, clampedMagnitude, abs_of_neg (not_le.mp hx), abs_of_neg (not_le.mp hy)]
      omega
    have hvalue := ulawValue_mono hg' hq' hg hq hcell' hcell hmag
    rw [decide_eq_false hx, decide_eq_false hy, decodeUlaw_neg hg hq, decodeUlaw_neg hg' hq']
    omega

/-- The A-law round trip on the three parts of its range. -/
theorem alawRoundTrip_cases {x : Int} (hlow : -32768 ≤ x) (hhigh : x ≤ 32767) :
    (0 ≤ x ∧ ∃ g < 8, ∃ q < 16, inAlawCell g q x ∧ decodeAlaw .negate (encodeAlaw x) = alawValue g q) ∨
    (-8 ≤ x ∧ x ≤ -1 ∧ decodeAlaw .negate (encodeAlaw x) = 8) ∨
    (x < -8 ∧ ∃ g < 8, ∃ q < 16, inAlawCell g q (-x - 8) ∧
      decodeAlaw .negate (encodeAlaw x) = -alawValue g q) := by
  rcases encodeAlaw_cases hlow hhigh with ⟨hx, g, hg, q, hq, hcell, hcode⟩ | ⟨hmin, hmax, hcode⟩ |
    ⟨hx, g, hg, q, hq, hcell, hcode⟩
  · exact .inl ⟨hx, g, hg, q, hq, hcell, hcode ▸ decodeAlaw_pos hg hq .negate⟩
  · exact .inr (.inl ⟨hmin, hmax, hcode ▸ decodeAlaw_pos (by decide) (by decide) .negate⟩)
  · exact .inr (.inr ⟨hx, g, hg, q, hq, hcell, hcode ▸ decodeAlaw_negate hg hq⟩)

theorem alawRoundTrip_mono {x y : Int} (hx : -32768 ≤ x) (hxy : x ≤ y) (hy : y ≤ 32767) :
    decodeAlaw .negate (encodeAlaw x) ≤ decodeAlaw .negate (encodeAlaw y) := by
  rcases alawRoundTrip_cases hx (hxy.trans hy) with ⟨hpos, g, hg, q, hq, hcell, hvalue⟩ | ⟨hmin, hmax, hvalue⟩ |
    ⟨hneg, g, hg, q, hq, hcell, hvalue⟩
  · rcases alawRoundTrip_cases (hx.trans hxy) hy with ⟨-, g', hg', q', hq', hcell', hvalue'⟩ | ⟨-, hmax', -⟩ |
      ⟨hneg', -⟩
    · rw [hvalue, hvalue']
      exact alawValue_mono hg hq hg' hq' hcell hcell' hxy
    · omega
    · omega
  · rcases alawRoundTrip_cases (hx.trans hxy) hy with ⟨-, g', hg', q', hq', -, hvalue'⟩ | ⟨-, -, hvalue'⟩ |
      ⟨hneg', -⟩
    · have := alawValue_range hg' hq'
      omega
    · omega
    · omega
  · have hrange := alawValue_range hg hq
    rcases alawRoundTrip_cases (hx.trans hxy) hy with ⟨-, g', hg', q', hq', -, hvalue'⟩ | ⟨-, -, hvalue'⟩ |
      ⟨-, g', hg', q', hq', hcell', hvalue'⟩
    · have := alawValue_range hg' hq'
      omega
    · omega
    · rw [hvalue, hvalue']
      exact neg_le_neg (alawValue_mono hg' hq' hg hq hcell' hcell (by omega))

/-! ### The ranges (R65(d)) -/

theorem abs_decodeUlaw_le (code : Byte) : |decodeUlaw code| ≤ 32124 := by
  obtain ⟨pos, g, hg, q, hq, rfl⟩ := exists_ulawByte code
  have hrange := ulawValue_range hg hq
  rw [abs_le]
  cases pos with
  | true => rw [decodeUlaw_pos hg hq]; omega
  | false => rw [decodeUlaw_neg hg hq]; omega

theorem decodeAlaw_zero_range (code : Byte) : 0 ≤ decodeAlaw .zero code ∧ decodeAlaw .zero code ≤ 32256 := by
  obtain ⟨pos, g, hg, q, hq, rfl⟩ := exists_alawByte code
  have hrange := alawValue_range hg hq
  cases pos with
  | true => rw [decodeAlaw_pos hg hq]; omega
  | false => rw [decodeAlaw_zero hg hq]; omega

theorem abs_decodeAlaw_le (neg : AlawDecNeg) (code : Byte) : |decodeAlaw neg code| ≤ 32256 := by
  rw [abs_le]
  cases neg with
  | zero => have := decodeAlaw_zero_range code; omega
  | negate =>
    obtain ⟨pos, g, hg, q, hq, rfl⟩ := exists_alawByte code
    have hrange := alawValue_range hg hq
    cases pos with
    | true => rw [decodeAlaw_pos hg hq]; omega
    | false => rw [decodeAlaw_negate hg hq]; omega

/-! ### The four operations (R61 to R64) -/

/-- A per-sample request is within every bound, so it decodes to its operation. -/
theorem decode_perSample {i : Instr} (lenMax : Option Nat) (h : i.input = []) :
    decode lenMax (encode i) = .ok i := by
  refine decodeOfEncode lenMax i ?_
  rw [Instr.wellFormed, h]
  exact withinLenMax_zero lenMax

theorem exec_encodeAlaw (sample : Word) (s : State) : exec (.encodeAlaw sample) s =
    .next (served s ⟨0x00, (encodeAlaw (sampleOf sample)).setWidth 16, 0, []⟩) := by
  rw [sampleOf, ← sampleOperand_eq]
  rfl

theorem exec_encodeUlaw (sample : Word) (s : State) : exec (.encodeUlaw sample) s =
    .next (served s ⟨0x00, (encodeUlaw (sampleOf sample)).setWidth 16, 0, []⟩) := by
  rw [sampleOf, ← sampleOperand_eq]
  rfl

theorem sampleOf_tc16_decodeAlaw (neg : AlawDecNeg) (code : Byte) :
    sampleOf (tc16 (decodeAlaw neg code)) = decodeAlaw neg code := by
  obtain ⟨hlow, hhigh⟩ := abs_le.mp (abs_decodeAlaw_le neg code)
  exact toInt_tc16 (by omega) (by omega)

theorem sampleOf_tc16_decodeUlaw (code : Byte) : sampleOf (tc16 (decodeUlaw code)) = decodeUlaw code := by
  obtain ⟨hlow, hhigh⟩ := abs_le.mp (abs_decodeUlaw_le code)
  exact toInt_tc16 (by omega) (by omega)

theorem exists_sampleOperand {x : Int} (hlow : -32768 ≤ x) (hhigh : x ≤ 32767) : ∃ w : Word, sampleOperand w = x :=
  ⟨tc16 x, (sampleOperand_eq _).trans (toInt_tc16 hlow hhigh)⟩

/-! ### The levels (R62, R64) -/

theorem alawLevel_alawByte (pos : Bool) {g q : Nat} (hg : g < 8) (hq : q < 16) :
    (alawLevel (alawByte pos g q) : Int) = alawValue g q := by
  simp only [alawLevel, alawByte_xor, segField_fieldByte hg hq, quantField_fieldByte hg hq, alawValue]
  push_cast
  rfl

theorem ulawLevel_ulawByte (pos : Bool) {g q : Nat} (hg : g < 8) (hq : q < 16) :
    (ulawLevel (ulawByte pos g q) : Int) = ulawValue g q - 132 := by
  have hvalue : ulawValue g q = ((8 * q + 132) * 2 ^ g : Nat) := by
    rw [ulawValue]
    push_cast
    rfl
  have hle : 132 ≤ (8 * q + 132) * 2 ^ g := by
    obtain ⟨hlow, -⟩ := ulawValue_range hg hq
    exact_mod_cast hvalue ▸ hlow
  unfold ulawLevel
  rw [not_ulawByte, segField_fieldByte hg hq, quantField_fieldByte hg hq, Nat.cast_sub hle, ← hvalue,
    Nat.cast_ofNat]

/-! ### Fields of a code from the bits of the magnitude (R61, R63) -/

theorem bits_of_inUlawCell {g q : Nat} {m : Int} (hg : g < 8) (hq : q < 16) (h : inUlawCell g q m) :
    (∀ i < g, 2 ^ (i + 8) - 1 < m) ∧ m ≤ 2 ^ (g + 8) - 1 ∧ (q : Int) = m / 2 ^ (g + 3) % 16 := by
  have hseg := segmentIndex_of_inUlawCell hg hq h
  refine ⟨fun i hi => threshold_lt_of_lt_segmentIndex (by omega), ?_, ?_⟩
  · exact Int.le_sub_one_of_lt (segment_of_inUlawCell hq h).2
  · rw [div_of_inUlawCell h]
    omega

theorem bits_of_inAlawCell {g q : Nat} {m : Int} (hg : g < 8) (hq : q < 16) (h : inAlawCell g q m) :
    (∀ i < g, 2 ^ (i + 8) - 1 < m) ∧ m ≤ 2 ^ (g + 8) - 1 ∧
      (q : Int) = (if g < 2 then m / 2 ^ 4 else m / 2 ^ (g + 3)) % 16 := by
  rcases g.eq_zero_or_pos with rfl | hpos
  · rw [inAlawCell_zero] at h
    rw [if_pos (by decide)]
    exact ⟨nofun, by omega, by omega⟩
  · obtain ⟨hlow, hhigh, hquant⟩ := bits_of_inUlawCell hg hq ((inAlawCell_pos hpos).mp h)
    refine ⟨hlow, hhigh, ?_⟩
    split_ifs
    · obtain rfl : g = 1 := by omega
      exact hquant
    · exact hquant

theorem alawByte_toNat (pos : Bool) {g q : Nat} (hg : g < 8) (hq : q < 16) :
    (alawByte pos g q).toNat = (16 * g + q) ^^^ if pos then 0xD5 else 0x55 := by
  rw [← ofNat_xor_aMask hg hq, BitVec.toNat_ofNat]
  exact Nat.mod_eq_of_lt (Nat.xor_lt_two_pow (by omega) (by cases pos <;> decide))

theorem ulawByte_toNat (pos : Bool) {g q : Nat} (hg : g < 8) (hq : q < 16) :
    (ulawByte pos g q).toNat = (16 * g + q) ^^^ if pos then 0xFF else 0x7F := by
  rw [← ofNat_xor_uMask hg hq, BitVec.toNat_ofNat]
  exact Nat.mod_eq_of_lt (Nat.xor_lt_two_pow (by omega) (by cases pos <;> decide))

/-! ### The statements -/

/-- Settles O7: the properties of the search over the list of thresholds. -/
theorem segmentIndexIsLeastThreshold : Obligations.SegmentIndexIsLeastThreshold := fun m =>
  ⟨segmentIndex_le_eight m, fun _ => threshold_lt_of_lt_segmentIndex, le_threshold_of_segmentIndex_lt⟩

/-- Settles O8: outside the band the cell of the magnitude gives the segment and the four bits. -/
theorem encodeAlawFollowsItsRule : Obligations.EncodeAlawFollowsItsRule := by
  intro s sample m mask
  refine ⟨decode_perSample (i := .encodeAlaw sample) _ rfl, encodeAlaw (sampleOf sample),
    exec_encodeAlaw sample s, ?_⟩
  obtain ⟨hlow, hhigh⟩ : -32768 ≤ sampleOf sample ∧ sampleOf sample ≤ 32767 := sample_range sample
  rcases encodeAlaw_cases hlow hhigh with ⟨hx, g, hg, q, hq, hcell, hcode⟩ | ⟨hmin, hmax, hcode⟩ |
    ⟨hx, g, hg, q, hq, hcell, hcode⟩
  · rw [if_neg (by omega), hcode]
    obtain ⟨hbelow, hend, hquant⟩ := bits_of_inAlawCell hg hq hcell
    have hm : m = sampleOf sample := if_pos hx
    have hmask : mask = 0xD5 := if_pos hx
    exact ⟨g, q, hg, hm ▸ hbelow, hm ▸ hend, hm ▸ hquant, hmask ▸ alawByte_toNat true hg hq⟩
  · rw [if_pos ⟨hmin, hmax⟩, hcode]
    rfl
  · rw [if_neg (by omega), hcode]
    obtain ⟨hbelow, hend, hquant⟩ := bits_of_inAlawCell hg hq hcell
    have hm : m = -sampleOf sample - 8 := if_neg (by omega)
    have hmask : mask = 0x55 := if_neg (by omega)
    exact ⟨g, q, hg, hm ▸ hbelow, hm ▸ hend, hm ▸ hquant, hmask ▸ alawByte_toNat false hg hq⟩

/-- Settles O9: the un-masked code's fields, in the three cases of its sign and of the parameter. -/
theorem decodeAlawFollowsItsRule : Obligations.DecodeAlawFollowsItsRule := by
  intro s code v ms g t
  refine ⟨decode_perSample (i := .decodeAlaw code) _ rfl, tc16 (decodeAlaw s.params.alawDecNeg code), rfl, ?_⟩
  have ht : t = alawValue (v / 16 % 8) (v % 16) := (alawValue_by_segment _ _).symm
  obtain ⟨pos, g', hg, q, hq, hcode⟩ := exists_alawByte code
  have hv : v = (fieldByte pos g' q).toNat := by rw [← alawByte_xor, ← hcode]; rfl
  have hfields : v / 16 % 8 = g' ∧ v % 16 = q := by
    rw [hv]
    exact ⟨segField_fieldByte hg hq pos, quantField_fieldByte hg hq pos⟩
  rw [sampleOf_tc16_decodeAlaw, ht, hfields.1, hfields.2, hv, if_congr (fieldByte_bit7 hg hq pos) rfl rfl, hcode,
    decodeAlaw_alawByte _ pos hg hq]
  rfl

/-- Settles O10: the clamp is the code of the last threshold, every other code that of its cell. -/
theorem encodeUlawFollowsItsRule : Obligations.EncodeUlawFollowsItsRule := by
  intro s sample m mask
  refine ⟨decode_perSample (i := .encodeUlaw sample) _ rfl, encodeUlaw (sampleOf sample),
    exec_encodeUlaw sample s, ?_⟩
  obtain ⟨g, hg, q, hq, hcell, hcode⟩ := encodeUlaw_cases (sampleOf sample)
  obtain ⟨hm, hmask⟩ : m = |sampleOf sample| + 132 ∧
      mask = if decide (0 ≤ sampleOf sample) then 0xFF else 0x7F := by
    by_cases hx : 0 ≤ sampleOf sample
    · simp [m, mask, abs_of_nonneg hx, hx, not_lt.mpr hx]
    · simp [m, mask, abs_of_neg (not_le.mp hx), not_le.mp hx, hx, neg_add_eq_sub]
  have htoNat : (encodeUlaw (sampleOf sample)).toNat = (16 * g + q) ^^^ mask := by
    rw [hcode, ulawByte_toNat _ hg hq, hmask]
  rw [htoNat]
  by_cases hclamp : 0x7FFF < m
  · rw [clampedMagnitude, ← hm, min_eq_right hclamp.le] at hcell
    obtain ⟨rfl, rfl⟩ := inUlawCell_last hg hq hcell
    rw [if_pos hclamp]
  · rw [clampedMagnitude, ← hm, min_eq_left (not_lt.mp hclamp)] at hcell
    obtain ⟨hbelow, hend, hquant⟩ := bits_of_inUlawCell hg hq hcell
    rw [if_neg hclamp]
    exact ⟨g, q, hg, hbelow, hend, hquant, rfl⟩

/-- Settles O11: the complemented code's fields, in the two cases of its sign. -/
theorem decodeUlawFollowsItsRule : Obligations.DecodeUlawFollowsItsRule := by
  intro s code v t
  refine ⟨decode_perSample (i := .decodeUlaw code) _ rfl, tc16 (decodeUlaw code), rfl, ?_⟩
  obtain ⟨pos, g, hg, q, hq, hcode⟩ := exists_ulawByte code
  have hv : v = (fieldByte (!pos) g q).toNat := by rw [← not_ulawByte, ← hcode, BitVec.toNat_not]
  have hseg : v / 16 % 8 = g := hv ▸ segField_fieldByte hg hq (!pos)
  have hquant : v % 16 = q := hv ▸ quantField_fieldByte hg hq (!pos)
  have ht : t = ulawValue g q := by
    rw [← hseg, ← hquant]
    rfl
  rw [sampleOf_tc16_decodeUlaw, ht, hv, if_congr (fieldByte_bit7 hg hq (!pos)) rfl rfl, hcode]
  cases pos with
  | true => exact decodeUlaw_pos hg hq
  | false => exact decodeUlaw_neg hg hq

/-- Settles O12: an encoder's code is that of a cell, whose fields come back; a decoder's value is the level. -/
theorem codesNameTheirCells : Obligations.CodesNameTheirCells := by
  refine ⟨fun sample hband => ?_, fun sample hx => ?_, fun code => ⟨?_, ?_⟩⟩
  · obtain ⟨hlow, hhigh⟩ : -32768 ≤ sampleOf sample ∧ sampleOf sample ≤ 32767 := sample_range sample
    rcases encodeAlaw_cases hlow hhigh with ⟨hx, g, hg, q, hq, hcell, hcode⟩ | ⟨hmin, hmax, -⟩ |
      ⟨hx, g, hg, q, hq, hcell, hcode⟩
    · rwa [hcode, alawByte_xor, segField_fieldByte hg hq, quantField_fieldByte hg hq, if_pos hx]
    · exact absurd ⟨hmin, hmax⟩ hband
    · rwa [hcode, alawByte_xor, segField_fieldByte hg hq, quantField_fieldByte hg hq, if_neg (by omega)]
  · obtain ⟨g, hg, q, hq, hcell, hcode⟩ := encodeUlaw_cases (sampleOf sample)
    rw [clampedMagnitude, min_eq_left (by omega)] at hcell
    rwa [hcode, not_ulawByte, segField_fieldByte hg hq, quantField_fieldByte hg hq]
  · obtain ⟨pos, g, hg, q, hq, rfl⟩ := exists_alawByte code
    rw [alawLevel_alawByte pos hg hq, if_congr (alawByte_sign hg hq pos) rfl rfl]
    cases pos with
    | true => exact (decodeAlaw_pos hg hq .negate).trans (one_mul _).symm
    | false => exact (decodeAlaw_negate hg hq).trans (neg_one_mul _).symm
  · obtain ⟨pos, g, hg, q, hq, rfl⟩ := exists_ulawByte code
    rw [ulawLevel_ulawByte pos hg hq, if_congr (ulawByte_sign hg hq pos) rfl rfl]
    cases pos with
    | true => exact (decodeUlaw_pos hg hq).trans (one_mul _).symm
    | false => exact (decodeUlaw_neg hg hq).trans (by rw [if_neg Bool.false_ne_true, neg_one_mul, neg_sub])

/-- Settles O13: the magnitude of -x is x - 8, so both are in one cell. -/
theorem alawNegativeHalfIsOffset : Obligations.AlawNegativeHalfIsOffset := by
  intro x hlow hhigh
  obtain ⟨g, hg, q, hq, hcell⟩ := exists_inAlawCell (m := x - 8) (by omega) (by omega)
  have hneg : inAlawCell g q (- -x - 8) := (neg_neg x).symm ▸ hcell
  rw [encodeAlaw_of_nonneg hg hq (by omega) hcell, encodeAlaw_of_neg hg hq (by omega) hneg,
    alawByte_xor_signBit hg hq]
  rfl

/-- Settles O14: a sample and its negation are in one cell, and a code's value does not depend on its sign. -/
theorem ulawIsSymmetric : Obligations.UlawIsSymmetric := by
  constructor
  · intro x hlow _
    obtain ⟨g, hg, q, hq, hcell, hcode⟩ := encodeUlaw_cases x
    have hneg : inUlawCell g q (clampedMagnitude (-x)) := by rwa [clampedMagnitude, abs_neg]
    rw [encodeUlaw_of_cell hg hq hneg, hcode, ulawByte_xor_signBit hg hq, decide_eq_true (by omega : 0 ≤ x),
      decide_eq_false (by omega)]
    rfl
  · intro code
    obtain ⟨pos, g, hg, q, hq, rfl⟩ := exists_ulawByte code
    rw [ulawByte_xor_signBit hg hq]
    cases pos with
    | true => rw [Bool.not_true, decodeUlaw_pos hg hq, decodeUlaw_neg hg hq, neg_sub]
    | false => rw [Bool.not_false, decodeUlaw_pos hg hq, decodeUlaw_neg hg hq, neg_sub]

/-- Settles O15: the decoder's sample is within 16 bits, so the encoder gets it back from its pattern. -/
theorem reencodingADecodedCode : Obligations.ReencodingADecodedCode := by
  intro s t code
  refine ⟨⟨tc16 (decodeUlaw code), rfl, ?_⟩, tc16 (decodeAlaw s.params.alawDecNeg code), rfl, _,
    exec_encodeAlaw _ t, ?_⟩
  · rw [exec_encodeUlaw, sampleOf_tc16_decodeUlaw, encodeUlaw_decodeUlaw]
  · rw [sampleOf_tc16_decodeAlaw]
    cases s.params.alawDecNeg with
    | negate => exact encodeAlaw_decodeAlaw_negate code
    | zero => exact encodeAlaw_decodeAlaw_zero code

/-- Settles O16: a sample in the code's cell, with the code's sign; it is the reconstruction value on the positive
side, and next to it on the negative one. -/
theorem everyCodeIsProduced : Obligations.EveryCodeIsProduced := by
  intro code
  constructor
  · obtain ⟨pos, g, hg, q, hq, rfl⟩ := exists_alawByte code
    have hrange := alawValue_range hg hq
    cases pos with
    | true =>
      obtain ⟨w, hw⟩ := exists_sampleOperand (x := alawValue g q) (by omega) (by omega)
      exact ⟨w, hw ▸ encodeAlaw_of_nonneg hg hq (by omega) (alawValue_in_cell g q)⟩
    | false =>
      obtain ⟨w, hw⟩ := exists_sampleOperand (x := -alawValue g q - 8) (by omega) (by omega)
      have hmag : -(-alawValue g q - 8) - 8 = alawValue g q := by omega
      exact ⟨w, hw ▸ encodeAlaw_of_neg hg hq (by omega) (hmag.symm ▸ alawValue_in_cell g q)⟩
  · obtain ⟨pos, g, hg, q, hq, rfl⟩ := exists_ulawByte code
    have hrange := ulawValue_range hg hq
    cases pos with
    | true =>
      have hx : 0 ≤ ulawValue g q - 132 := by omega
      obtain ⟨w, hw⟩ := exists_sampleOperand (x := ulawValue g q - 132) (by omega) (by omega)
      refine ⟨w, ?_⟩
      rw [hw, encodeUlaw_of_value hg hq (by rw [abs_of_nonneg hx]; omega), decide_eq_true hx]
    | false =>
      have hx : 131 - ulawValue g q < 0 := by omega
      obtain ⟨w, hw⟩ := exists_sampleOperand (x := 131 - ulawValue g q) (by omega) (by omega)
      have hmag : clampedMagnitude (131 - ulawValue g q) = ulawValue g q + 1 := by
        rw [clampedMagnitude, abs_of_neg hx]
        omega
      have hstep : (2 : Int) ^ 2 ≤ 2 ^ (g + 2) := pow_le_pow_right₀ (by decide) (by omega)
      have hcell := inUlawCell_middle_add (g := g) (q := q) (d := 1) (by omega) (by omega)
      refine ⟨w, ?_⟩
      rw [hw, encodeUlaw_of_cell hg hq (hmag ▸ hcell), decide_eq_false (not_le.mpr hx)]

/-- Settles O17: the sign of a code is that of its sample, the A-law band counting as positive. -/
theorem signBitsAndDecoderRanges : Obligations.SignBitsAndDecoderRanges := by
  refine ⟨fun sample => ?_, fun code => ?_⟩
  · obtain ⟨hlow, hhigh⟩ := sample_range sample
    rw [sampleOperand_eq, sampleOf]
    constructor
    · rcases encodeAlaw_cases hlow hhigh with ⟨hx, g, hg, q, hq, -, hcode⟩ | ⟨hmin, -, hcode⟩ |
        ⟨hx, g, hg, q, hq, -, hcode⟩
      · rw [hcode, alawByte_sign hg hq]
        exact iff_of_true rfl (by omega)
      · rw [hcode]
        exact iff_of_true (by decide) hmin
      · rw [hcode, alawByte_sign hg hq]
        exact iff_of_false Bool.false_ne_true (by omega)
    · obtain ⟨g, hg, q, hq, -, hcode⟩ := encodeUlaw_cases sample.toInt
      rw [hcode, ulawByte_sign hg hq, decide_eq_true_iff]
  · obtain ⟨hzero, hmax⟩ := decodeAlaw_zero_range code
    exact ⟨abs_decodeAlaw_le .negate code, hzero, hmax, abs_decodeUlaw_le code⟩

/-- Settles O18: samples of one sign are in ordered cells, and the signs are ordered among themselves. -/
theorem roundTripsAreMonotone : Obligations.RoundTripsAreMonotone := by
  intro x y hx hxy hy
  exact ⟨ulawRoundTrip_mono hxy, alawRoundTrip_mono hx hxy hy⟩

/-- Settles O19: half a step from the cell's middle; above the clamp, the distance from the last value. -/
theorem ulawRoundTripError : Obligations.UlawRoundTripError := by
  intro x hlow hhigh
  obtain ⟨g, hg, q, hq, hcell, hcode⟩ := encodeUlaw_cases x
  have herr : |decodeUlaw (encodeUlaw x) - x| = |ulawValue g q - (|x| + 132)| := by
    rw [hcode]
    by_cases hx : 0 ≤ x
    · rw [decide_eq_true hx, decodeUlaw_pos hg hq, abs_of_nonneg hx]
      congr 1
      ring
    · rw [decide_eq_false hx, decodeUlaw_neg hg hq, abs_of_neg (not_le.mp hx), abs_sub_comm]
      congr 1
      ring
  rw [herr, hcode, ulawStepSize_ulawByte _ hg hq]
  by_cases hclamp : |x| ≤ 32635
  · rw [clampedMagnitude, min_eq_left (by omega)] at hcell
    obtain ⟨hbelow, habove⟩ := ulawValue_dist hcell
    have hhalf := two_mul_abs_sub_le hbelow (by omega)
    have hstep : (2 : Int) ^ (g + 3) ≤ 2 ^ 10 := pow_le_pow_right₀ (by decide) (by omega)
    have habs := abs_nonneg (ulawValue g q - (|x| + 132))
    exact ⟨by omega, by omega, fun _ => hhalf⟩
  · rw [clampedMagnitude, min_eq_right (by omega)] at hcell
    obtain ⟨rfl, rfl⟩ := inUlawCell_last hg hq hcell
    have hmax : |x| ≤ 32768 := abs_le.mpr (by omega)
    have hlast : |ulawValue 7 15 - (|x| + 132)| ≤ 644 := by
      rw [show ulawValue 7 15 = 32256 from rfl, abs_le]
      omega
    exact ⟨hlast.trans (by decide), hlast, fun h => absurd h hclamp⟩

/-- Settles O20: half a step from the cell's middle, moved by 8 on the negative side; the band is decoded as 8. -/
theorem alawRoundTripError : Obligations.AlawRoundTripError := by
  intro neg x hlow hhigh y stepSize
  rcases encodeAlaw_cases hlow hhigh with ⟨hx, g, hg, q, hq, hcell, hcode⟩ | ⟨hmin, hmax, hcode⟩ |
    ⟨hx, g, hg, q, hq, hcell, hcode⟩
  · have hy : y = alawValue g q := (congrArg _ hcode).trans (decodeAlaw_pos hg hq neg)
    have hstep : stepSize = alawStep g :=
      (congrArg _ hcode).trans (alawStepSize_alawByte true hg hq)
    rw [if_pos hx, hy, hstep]
    obtain ⟨hbelow, habove⟩ := alawValue_dist hcell
    exact two_mul_abs_sub_le hbelow (by omega)
  · have hy : y = 8 := (congrArg _ hcode).trans (decodeAlaw_pos (by decide) (by decide) neg)
    rw [if_neg (by omega), if_pos hmin, hy, abs_le]
    omega
  · rw [if_neg (by omega), if_neg (by omega)]
    cases neg with
    | zero => exact (congrArg _ hcode).trans (decodeAlaw_zero hg hq)
    | negate =>
      have hy : y = -alawValue g q := (congrArg _ hcode).trans (decodeAlaw_negate hg hq)
      have hstep : stepSize = alawStep g :=
        (congrArg _ hcode).trans (alawStepSize_alawByte false hg hq)
      obtain ⟨hbelow, habove⟩ := alawValue_dist hcell
      rw [← hstep] at hbelow habove
      have hmin : 16 ≤ stepSize := hstep ▸ sixteen_le_alawStep g
      have herr : 2 * |y - x| ≤ stepSize + 14 := two_mul_abs_sub_le (by omega) (by omega)
      exact ⟨herr, by omega⟩

end Sys2Proof.Machine
end

section
/-! PROOFS. The four buffer operations as maps (41_codec_buffer.md R70 to R75): the bytes that a PCM-consuming and a
code-consuming operation give, sample by sample and code by code, and both applied one after the other. -/

namespace Sys2Proof.Machine

/-! ### The samples of a buffer in parts (20_memory.md R24) -/

theorem pcmSample_append_left {xs : List Byte} (ys : List Byte) {k : Nat} (h : 2 * k + 1 < xs.length) :
    pcmSample (xs ++ ys) k = pcmSample xs k := by
  rw [pcmSample, pcmSample, List.getD_append _ _ _ _ h, List.getD_append _ _ _ _ (by omega)]

theorem pcmSample_append_right {xs : List Byte} {n : Nat} (hlen : xs.length = 2 * n) (ys : List Byte) (k : Nat) :
    pcmSample (xs ++ ys) (n + k) = pcmSample ys k := by
  have hlow : 2 * (n + k) - xs.length = 2 * k := by omega
  have hhigh : 2 * (n + k) + 1 - xs.length = 2 * k + 1 := by omega
  rw [pcmSample, pcmSample, List.getD_append_right _ _ _ _ (by omega), List.getD_append_right _ _ _ _ (by omega),
    hlow, hhigh]

/-! ### The output of a PCM-consuming operation (R71, R73) -/

/-- One code per sample, in order. -/
def compressed (f : Int → Byte) (data : List Byte) : List Byte :=
  (List.range (data.length / 2)).map fun k => f (pcmSample data k)

@[simp] theorem compressed_length (f : Int → Byte) (data : List Byte) :
    (compressed f data).length = data.length / 2 := by
  rw [compressed, List.length_map, List.length_range]

theorem compressed_getElem {f : Int → Byte} {data : List Byte} {k : Nat} (h : k < (compressed f data).length) :
    (compressed f data)[k] = f (pcmSample data k) := by
  simp only [compressed, List.getElem_map, List.getElem_range]

theorem compressed_one (f : Int → Byte) (lo hi : Byte) : compressed f [lo, hi] = [f (sampleOf (hi ++ lo))] := by
  simp [compressed, pcmSample, sampleOf]

/-- The first part ends between two samples, so no sample is made of both. -/
theorem compressed_append (f : Int → Byte) {xs : List Byte} (heven : xs.length % 2 = 0) (ys : List Byte) :
    compressed f (xs ++ ys) = compressed f xs ++ compressed f ys := by
  have hcount : (xs ++ ys).length / 2 = xs.length / 2 + ys.length / 2 := by
    rw [List.length_append]
    omega
  rw [compressed, hcount, List.range_add, List.map_append, List.map_map]
  congr 1
  · refine List.map_congr_left fun k hk => ?_
    rw [List.mem_range] at hk
    rw [pcmSample_append_left ys (by omega)]
  · refine List.map_congr_left fun k _ => ?_
    rw [Function.comp_apply, pcmSample_append_right (by omega) ys k]

/-- Status `OK` means an even length, and settles the output. -/
theorem compressBuffer_ok_iff {f : Int → Byte} {data out : List Byte} {s : State} {n : Nat} :
    compressBuffer f data s = .next (served s ⟨0x00, 0, n, out⟩) ↔
      data.length % 2 = 0 ∧ n = data.length / 2 ∧ out = compressed f data := by
  constructor
  · intro h
    obtain ⟨-, hc⟩ | ⟨heven, hc⟩ := compressBuffer_cases f data s
    · cases next_served_injective (hc.symm.trans h)
    · cases next_served_injective (hc.symm.trans h)
      exact ⟨heven, rfl, rfl⟩
  · rintro ⟨heven, rfl, rfl⟩
    exact compressBuffer_even heven s

theorem compressBuffer_encodesEverySample (f : Int → Byte) (s : State) (data : List Byte) :
    if data.length % 2 = 1 then compressBuffer f data s = .next (served s ⟨0x01, 0, 0, []⟩)
    else ∃ odata : List Byte, compressBuffer f data s = .next (served s ⟨0x00, 0, data.length / 2, odata⟩) ∧
      odata.length = data.length / 2 ∧ ∀ k < data.length / 2, odata[k]? = some (f (pcmSample data k)) := by
  split
  next hodd => exact compressBuffer_odd hodd s
  next heven =>
    refine ⟨compressed f data, compressBuffer_ok_iff.mpr ⟨by omega, rfl, rfl⟩, compressed_length f data,
      fun k hk => ?_⟩
    rw [List.getElem?_eq_getElem (by rwa [compressed_length]), compressed_getElem]

theorem compressBuffer_append {f : Int → Byte} {s : State} {xs ys bx bys : List Byte} {nx ny : Nat}
    (hx : compressBuffer f xs s = .next (served s ⟨0x00, 0, nx, bx⟩))
    (hy : compressBuffer f ys s = .next (served s ⟨0x00, 0, ny, bys⟩)) :
    compressBuffer f (xs ++ ys) s = .next (served s ⟨0x00, 0, nx + ny, bx ++ bys⟩) := by
  obtain ⟨hxeven, rfl, rfl⟩ := compressBuffer_ok_iff.mp hx
  obtain ⟨hyeven, rfl, rfl⟩ := compressBuffer_ok_iff.mp hy
  refine compressBuffer_ok_iff.mpr ⟨?_, ?_, (compressed_append f hxeven ys).symm⟩ <;> rw [List.length_append] <;> omega

theorem compressBuffer_one (f : Int → Byte) (lo hi : Byte) (s : State) :
    compressBuffer f [lo, hi] s = .next (served s ⟨0x00, 0, 1, [f (sampleOf (hi ++ lo))]⟩) :=
  compressBuffer_ok_iff.mpr ⟨by simp, by simp, (compressed_one f lo hi).symm⟩

/-! ### The output of a code-consuming operation (R72, R74) -/

/-- Two bytes per code, in order. -/
def expanded (f : Byte → Int) (codes : List Byte) : List Byte :=
  codes.flatMap fun c => sampleBytes (tc16 (f c))

@[simp] theorem expanded_length (f : Byte → Int) (codes : List Byte) : (expanded f codes).length = 2 * codes.length :=
  length_flatMap_sampleBytes codes _

theorem expanded_append (f : Byte → Int) (xs ys : List Byte) : expanded f (xs ++ ys) = expanded f xs ++ expanded f ys :=
  List.flatMap_append

/-- Sample `k` stands after the `2k` bytes of the codes before it. -/
theorem pcmSample_expanded (f : Byte → Int) {codes : List Byte} {k : Nat} (h : k < codes.length) :
    pcmSample (expanded f codes) k = sampleOf (tc16 (f codes[k])) := by
  have hbefore : (expanded f (codes.take k)).length = 2 * k := by
    rw [expanded_length, List.length_take_of_le h.le]
  have hsplit : expanded f codes =
      expanded f (codes.take k) ++ (sampleBytes (tc16 (f codes[k])) ++ expanded f (codes.drop (k + 1))) := by
    conv_lhs => rw [← List.take_append_drop k codes, List.drop_eq_getElem_cons h, expanded_append]
    rfl
  rw [hsplit]
  refine (pcmSample_append_right hbefore _ 0).trans ?_
  rw [pcmSample_append_left _ (by rw [sampleBytes_length]; decide)]
  exact congrArg BitVec.toInt (append_halves _)

/-- Status `OK` means an output within `LEN_MAX`, and settles the output. -/
theorem expandBuffer_ok_iff {f : Byte → Int} {codes out : List Byte} {s : State} {n : Nat} :
    expandBuffer f codes s = .next (served s ⟨0x00, 0, n, out⟩) ↔
      withinLenMax s.params.lenMax (2 * codes.length) = true ∧ n = 2 * codes.length ∧ out = expanded f codes := by
  constructor
  · intro h
    obtain ⟨-, he⟩ | ⟨hfit, he⟩ := expandBuffer_cases f codes s
    · cases he.symm.trans h
    · cases next_served_injective (he.symm.trans h)
      exact ⟨hfit, rfl, rfl⟩
  · rintro ⟨hfit, rfl, rfl⟩
    exact expandBuffer_fits hfit

theorem expandBuffer_decodesEveryCode {f : Byte → Int} (hf : ∀ c, sampleOf (tc16 (f c)) = f c) (s : State)
    (codes : List Byte) :
    if withinLenMax s.params.lenMax (2 * codes.length) = true then ∃ odata : List Byte,
      expandBuffer f codes s = .next (served s ⟨0x00, 0, 2 * codes.length, odata⟩) ∧
      odata.length = 2 * codes.length ∧ ∀ k, ∀ h : k < codes.length, pcmSample odata k = f codes[k]
    else expandBuffer f codes s = .refused .lengthOutOfRange := by
  split
  next hfit =>
    exact ⟨expanded f codes, expandBuffer_ok_iff.mpr ⟨hfit, rfl, rfl⟩, expanded_length f codes,
      fun k h => (pcmSample_expanded f h).trans (hf _)⟩
  next hlong => exact expandBuffer_refused (Bool.eq_false_of_not_eq_true hlong)

theorem expandBuffer_append {f : Byte → Int} {s : State} {xs ys bx bys : List Byte} {nx ny : Nat}
    (hfit : withinLenMax s.params.lenMax (2 * (xs ++ ys).length) = true)
    (hx : expandBuffer f xs s = .next (served s ⟨0x00, 0, nx, bx⟩))
    (hy : expandBuffer f ys s = .next (served s ⟨0x00, 0, ny, bys⟩)) :
    expandBuffer f (xs ++ ys) s = .next (served s ⟨0x00, 0, nx + ny, bx ++ bys⟩) := by
  obtain ⟨-, rfl, rfl⟩ := expandBuffer_ok_iff.mp hx
  obtain ⟨-, rfl, rfl⟩ := expandBuffer_ok_iff.mp hy
  refine expandBuffer_ok_iff.mpr ⟨hfit, ?_, (expanded_append f xs ys).symm⟩
  rw [List.length_append, Nat.mul_add]

theorem expandBuffer_one {s : State} (hfit : withinLenMax s.params.lenMax 2 = true) (f : Byte → Int) (code : Byte) :
    expandBuffer f [code] s = .next (served s ⟨0x00, 0, 2, sampleBytes (tc16 (f code))⟩) :=
  expandBuffer_fits hfit

/-! ### One operation after the other (R75(d), (e)) -/

/-- Compressing and then expanding is, sample by sample, encoding and then decoding. -/
theorem expandBuffer_compressed (f : Int → Byte) {g : Byte → Int} (hg : ∀ c, sampleOf (tc16 (g c)) = g c) {t : State}
    {data : List Byte} (heven : data.length % 2 = 0) (hfit : withinLenMax t.params.lenMax data.length = true) :
    ∃ back : List Byte, expandBuffer g (compressed f data) t = .next (served t ⟨0x00, 0, data.length, back⟩) ∧
      back.length = data.length ∧
      ∀ k < (compressed f data).length, pcmSample back k = g (f (pcmSample data k)) := by
  have hlen : 2 * (compressed f data).length = data.length := by
    rw [compressed_length]
    omega
  refine ⟨expanded g (compressed f data), expandBuffer_ok_iff.mpr ⟨hlen.symm ▸ hfit, hlen.symm, rfl⟩,
    (expanded_length g _).trans hlen, fun k hk => ?_⟩
  rw [pcmSample_expanded g hk, hg, compressed_getElem hk]

/-- An expander's output has an even length, so a compressor takes it. -/
theorem compressBuffer_expanded (f : Int → Byte) (g : Byte → Int) (codes : List Byte) (t : State) :
    compressBuffer f (expanded g codes) t =
      .next (served t ⟨0x00, 0, codes.length, compressed f (expanded g codes)⟩) :=
  compressBuffer_ok_iff.mpr ⟨by rw [expanded_length]; omega, by rw [expanded_length]; omega, rfl⟩

/-! ### The code of a per-sample response (30_encoding.md R46) -/

theorem code_of_response {s : State} {code code' : Byte}
    (h : (.next (served s ⟨0x00, code.setWidth 16, 0, []⟩) : Outcome) = .next (served s ⟨0x00, 0#8 ++ code', 0, []⟩)) :
    code = code' := by
  have hr : code.setWidth 16 = 0#8 ++ code' := congrArg Response.r (next_served_injective h)
  apply BitVec.eq_of_toNat_eq
  rw [← toNat_zero_append_code code', ← hr, BitVec.toNat_setWidth_of_le (by decide)]

/-! ### The statements -/

/-- Settles O23: the request is the instruction's own, and the loop is the map of `encode_alaw`. -/
theorem pcmToAlawEncodesEverySample : Obligations.PcmToAlawEncodesEverySample := fun s data =>
  ⟨decodeOfEncode s.params.lenMax (.pcmToAlaw data), compressBuffer_encodesEverySample encodeAlaw s data⟩

/-- Settles O24: the request is the instruction's own, and the loop is the map of `encode_ulaw`. -/
theorem pcmToUlawEncodesEverySample : Obligations.PcmToUlawEncodesEverySample := fun s data =>
  ⟨decodeOfEncode s.params.lenMax (.pcmToUlaw data), compressBuffer_encodesEverySample encodeUlaw s data⟩

/-- Settles O25: every decoded sample is within 16 bits, so it is read back from its two bytes. -/
theorem alawToPcmDecodesEveryCode : Obligations.AlawToPcmDecodesEveryCode := fun s data =>
  ⟨decodeOfEncode s.params.lenMax (.alawToPcm data),
    expandBuffer_decodesEveryCode (sampleOf_tc16_decodeAlaw s.params.alawDecNeg) s data⟩

/-- Settles O26: every decoded sample is within 16 bits, so it is read back from its two bytes. -/
theorem ulawToPcmDecodesEveryCode : Obligations.UlawToPcmDecodesEveryCode := fun s data =>
  ⟨decodeOfEncode s.params.lenMax (.ulawToPcm data), expandBuffer_decodesEveryCode sampleOf_tc16_decodeUlaw s data⟩

/-- Settles O27: status `OK` gives each part's output as a map, and a map of a joined list is the joined maps. -/
theorem bufferOperationsConcatenate : Obligations.BufferOperationsConcatenate := by
  intro s xs ys bx bys nx ny
  simp only [List.forall_mem_cons, List.not_mem_nil, false_implies, implies_true, and_true]
  exact ⟨⟨fun _ => compressBuffer_append, fun _ => compressBuffer_append⟩, expandBuffer_append, expandBuffer_append⟩

/-- Settles O28: the buffer's one element is the per-sample operand, and `R` tells the code or the sample. -/
theorem oneElementBufferAgrees : Obligations.OneElementBufferAgrees := by
  intro s lo hi code v
  refine ⟨fun h => ?_, fun h => ?_, fun hfit => ⟨fun h => ?_, fun h => ?_⟩⟩
  · obtain rfl := code_of_response ((exec_encodeAlaw _ s).symm.trans h)
    exact compressBuffer_one encodeAlaw lo hi s
  · obtain rfl := code_of_response ((exec_encodeUlaw _ s).symm.trans h)
    exact compressBuffer_one encodeUlaw lo hi s
  · obtain rfl : tc16 (decodeAlaw s.params.alawDecNeg code) = v := congrArg Response.r (next_served_injective h)
    exact expandBuffer_one hfit _ code
  · obtain rfl : tc16 (decodeUlaw code) = v := congrArg Response.r (next_served_injective h)
    exact expandBuffer_one hfit _ code

/-- Settles O29: the round trip of each sample is `ulawRoundTripError`. -/
theorem ulawBufferRoundTrip : Obligations.UlawBufferRoundTrip := by
  intro s t data n codes heven hfit h
  obtain ⟨-, -, rfl⟩ := compressBuffer_ok_iff.mp h
  obtain ⟨back, hback, hlen, hsample⟩ := expandBuffer_compressed encodeUlaw sampleOf_tc16_decodeUlaw heven hfit
  refine ⟨back, hback, hlen, fun k hk => ?_⟩
  obtain ⟨hmin, hmax⟩ := pcmSample_range data k
  rw [hsample k hk, compressed_getElem hk]
  exact (ulawRoundTripError (pcmSample data k) hmin hmax).1

/-- Settles O30: the round trip of each sample is `alawRoundTripError`, clause by clause. -/
theorem alawBufferRoundTrip : Obligations.AlawBufferRoundTrip := by
  intro s t data n codes heven hfit h
  obtain ⟨-, -, rfl⟩ := compressBuffer_ok_iff.mp h
  obtain ⟨back, hback, hlen, hsample⟩ :=
    expandBuffer_compressed encodeAlaw (sampleOf_tc16_decodeAlaw t.params.alawDecNeg) heven hfit
  refine ⟨back, hback, hlen, fun k hk => ?_⟩
  obtain ⟨hmin, hmax⟩ := pcmSample_range data k
  have herr := alawRoundTripError t.params.alawDecNeg (pcmSample data k) hmin hmax
  rw [hsample k hk, compressed_getElem hk]
  generalize t.params.alawDecNeg = neg at herr ⊢
  dsimp only at herr ⊢
  split_ifs at herr ⊢
  · exact herr
  · exact herr.1
  · cases neg with
    | negate => exact herr.1
    | zero => exact herr

/-- Settles O31: two bytes per code make an even length. -/
theorem alawChainNeverErrs : Obligations.AlawChainNeverErrs := by
  intro s t codes n pcm h
  obtain ⟨-, -, rfl⟩ := expandBuffer_ok_iff.mp h
  refine ⟨_, compressBuffer_expanded encodeAlaw _ codes t, ?_⟩
  rw [compressed_length, expanded_length]
  omega

end Sys2Proof.Machine
end

section
/-! PROOFS. The two roundings of the resampler's arithmetic as the spec words them (42_resampler.md R82 to R84): the
nearest integer with its tie rule, and the nearest binary64 value with ties to the even significand. -/

namespace Sys2Proof.Machine

/-! ### The nearest integer (R84) -/

/-- A half-way value goes to the integer farther from zero. -/
theorem roundTiesAway_of_half {x : Rat} (h : |(roundTiesAway x : Rat) - x| = 1 / 2) :
    |x| < |(roundTiesAway x : Rat)| := by
  obtain ⟨hlo, hhi⟩ := floor_bounds x
  rw [roundTiesAway] at h ⊢
  split_ifs at h ⊢ with hbelow habove hpos
  · rw [abs_sub_comm, abs_of_nonneg (by linarith)] at h
    linarith
  · rw [Int.cast_add, Int.cast_one, abs_of_nonneg (by linarith)] at h
    linarith
  · rw [Int.cast_add, Int.cast_one, abs_of_nonneg hpos, abs_of_nonneg (by linarith)]
    linarith
  · rw [abs_of_neg (not_le.mp hpos), abs_of_neg (by linarith)]
    linarith

/-- A half-way value goes to the even integer. -/
theorem roundTiesEven_of_half {x : Rat} (h : |(roundTiesEven x : Rat) - x| = 1 / 2) : roundTiesEven x % 2 = 0 := by
  obtain ⟨hlo, hhi⟩ := floor_bounds x
  rw [roundTiesEven] at h ⊢
  split_ifs at h ⊢ with hbelow habove heven
  · rw [abs_sub_comm, abs_of_nonneg (by linarith)] at h
    linarith
  · rw [Int.cast_add, Int.cast_one, abs_of_nonneg (by linarith)] at h
    linarith
  · exact heven
  · omega

/-- No integer is nearer than the rounded one. -/
theorem roundBy_nearest (rule : TieRule) (x : Rat) (j : Int) : |(roundBy rule x : Rat) - x| ≤ |(j : Rat) - x| := by
  by_cases hj : roundBy rule x = j
  · rw [hj]
  · have hgap : (1 : Rat) ≤ |(j : Rat) - roundBy rule x| := by
      exact_mod_cast Int.one_le_abs (sub_ne_zero.mpr (Ne.symm hj))
    have htri := abs_sub_le (j : Rat) x (roundBy rule x)
    have herr := roundBy_error rule x
    rw [abs_sub_comm x] at htri
    linarith

/-! ### The significand of a rounded value (R82) -/

/-- The value in units of the last place has at most 53 bits before the point. -/
theorem abs_div_binary64Ulp_lt {q : Rat} (hq : q ≠ 0) : |q / binary64Ulp q| < 2 ^ 53 := by
  rw [abs_div, abs_of_pos (binary64Ulp_pos q), div_lt_iff₀ (binary64Ulp_pos q), binary64Ulp_eq, ← zpow_natCast,
    ← zpow_add₀ two_ne_zero]
  refine (exponentOf_spec hq).2.trans_le (zpow_le_zpow_right₀ one_le_two ?_)
  simp only [ulpExponent]
  omega

/-- It has all 53 where the unit is not the least one. -/
theorem le_abs_div_binary64Ulp {q : Rat} (hq : q ≠ 0) (he : ulpExponent q ≠ -1074) :
    2 ^ 52 ≤ |q / binary64Ulp q| := by
  rw [abs_div, abs_of_pos (binary64Ulp_pos q), le_div_iff₀ (binary64Ulp_pos q), binary64Ulp_eq, ← zpow_natCast,
    ← zpow_add₀ two_ne_zero]
  refine le_trans (zpow_le_zpow_right₀ one_le_two ?_) (exponentOf_spec hq).1
  simp only [ulpExponent] at he ⊢
  omega

theorem abs_roundBy_le (rule : TieRule) {x : Rat} {i : Int} (h : |x| ≤ i) : |roundBy rule x| ≤ i := by
  obtain ⟨hlo, hhi⟩ := abs_le.mp h
  exact abs_le.mpr ⟨le_roundBy rule (by push_cast; linarith), roundBy_le rule (by linarith)⟩

theorem le_abs_roundBy (rule : TieRule) {x : Rat} {i : Int} (h : i ≤ |x|) : i ≤ |roundBy rule x| := by
  rcases le_abs.mp h with hpos | hneg
  · exact le_abs.mpr (.inl (le_roundBy rule (by linarith)))
  · exact le_abs.mpr (.inr (le_neg.mpr (roundBy_le rule (by push_cast; linarith))))

/-! ### The binary64 values -/

theorem isBinary64_zpow_mul {m e : Int} (hm : |m| ≤ 2 ^ 53) (he : -1074 ≤ e) : isBinary64 (m * (2 : Rat) ^ e) := by
  rcases lt_or_eq_of_le hm with hlt | heq
  · exact ⟨m, e, hlt, he, rfl⟩
  · obtain ⟨m', rfl⟩ : (2 : Int) ∣ m := (dvd_abs 2 m).mp (heq ▸ by norm_num)
    refine ⟨m', e + 1, ?_, by omega, ?_⟩
    · rw [abs_mul] at heq
      norm_num at heq ⊢
      omega
    · rw [zpow_add_one₀ two_ne_zero]
      push_cast
      ring

theorem isBinary64_intCast {i : Int} (hi : |i| ≤ 2 ^ 53) : isBinary64 (i : Rat) := by
  have h := isBinary64_zpow_mul hi (e := 0) (by norm_num)
  rwa [zpow_zero, mul_one] at h

theorem binary64Round_of_isBinary64 {q : Rat} (h : isBinary64 q) : binary64Round q = q := by
  obtain ⟨m, e, hm, he, rfl⟩ := h
  exact binary64Round_exact hm he

/-- A value of a finer spacing than that around `q` is nearer to zero than a full significand is. -/
theorem isBinary64_multiple_or_small {y : Rat} (hy : isBinary64 y) (q : Rat) :
    (∃ j : Int, y = j * binary64Ulp q) ∨ (ulpExponent q ≠ -1074 ∧ |y| < 2 ^ 52 * binary64Ulp q) := by
  obtain ⟨m, e, hm, he, rfl⟩ := hy
  rw [binary64Ulp_eq]
  rcases le_or_gt (ulpExponent q) e with hcoarse | hfine
  · obtain ⟨d, rfl⟩ := Int.le.dest hcoarse
    refine .inl ⟨m * 2 ^ d, ?_⟩
    rw [zpow_add₀ two_ne_zero, zpow_natCast]
    push_cast
    ring
  · refine .inr ⟨by omega, ?_⟩
    have hm' : |(m : Rat)| < 2 ^ 53 := by exact_mod_cast hm
    calc |(m : Rat) * 2 ^ e| = |(m : Rat)| * 2 ^ e := by rw [abs_mul, abs_of_pos (by positivity : (0 : Rat) < 2 ^ e)]
      _ < 2 ^ 53 * 2 ^ e := by gcongr
      _ = 2 ^ 52 * (2 : Rat) ^ (e + 1) := by rw [zpow_add_one₀ two_ne_zero]; ring
      _ ≤ 2 ^ 52 * (2 : Rat) ^ ulpExponent q := by gcongr <;> [norm_num; omega]

/-- No multiple of the spacing around `q` is nearer than the rounded value. -/
theorem binary64Round_nearest_multiple {q : Rat} (hq : q ≠ 0) (j : Int) :
    |binary64Round q - q| ≤ |j * binary64Ulp q - q| := by
  have hu := binary64Ulp_pos q
  have scaled (i : Int) : |i * binary64Ulp q - q| = |i - q / binary64Ulp q| * binary64Ulp q := by
    rw [← abs_of_pos hu, ← abs_mul, abs_of_pos hu, sub_mul, div_mul_cancel₀ _ hu.ne']
  rw [(binary64Round_ulp hq).1, scaled, scaled]
  exact mul_le_mul_of_nonneg_right (roundBy_nearest .tiesEven _ j) hu.le

/-- Where a multiple of `u` lies between the magnitudes of `y` and `q`, the one with the sign of `q` is as near to `q`
as `y` is. -/
theorem exists_multiple_nearer {y u q : Rat} {i : Int} (hy : |y| ≤ i * u) (hq : i * u ≤ |q|) :
    ∃ j : Int, |j * u - q| ≤ |y - q| := by
  obtain ⟨hlo, hhi⟩ := abs_le.mp hy
  rcases le_total 0 q with hpos | hneg
  · rw [abs_of_nonneg hpos] at hq
    refine ⟨i, ?_⟩
    rw [abs_sub_comm, abs_sub_comm y, abs_of_nonneg (by linarith), abs_of_nonneg (by linarith)]
    linarith
  · rw [abs_of_nonpos hneg] at hq
    refine ⟨-i, ?_⟩
    rw [Int.cast_neg, neg_mul, abs_of_nonneg (by linarith), abs_of_nonneg (by linarith)]
    linarith

/-! ### The statements -/

/-- Settles O43: the error bound is `roundBy_error`, the ties are the two lemmas on half-way values. -/
theorem froundIsNearest : Obligations.FroundIsNearest := fun x =>
  ⟨roundBy_error .tiesAway x, roundTiesAway_of_half, roundBy_error .tiesEven x, roundTiesEven_of_half⟩

/-- Settles O45: the significand is the quotient by the unit of the last place, rounded to an integer. -/
theorem binary64RoundsOnceTiesToEven : Obligations.Binary64RoundsOnceTiesToEven := by
  intro q
  by_cases hq : q = 0
  · subst hq
    exact ⟨0, -1074, by simp, by norm_num, le_rfl, .inr rfl, by simp; positivity, fun _ => rfl⟩
  obtain ⟨hdef, herr⟩ := binary64Round_ulp hq
  have hu := binary64Ulp_pos q
  refine ⟨roundTiesEven (q / binary64Ulp q), ulpExponent q, ?_, ?_, ulpExponent_ge q, ?_, ?_, ?_⟩
  · rw [← binary64Ulp_eq]; exact hdef
  · exact abs_roundBy_le .tiesEven (by exact_mod_cast (abs_div_binary64Ulp_lt hq).le)
  · refine or_iff_not_imp_right.mpr fun he => le_abs_roundBy .tiesEven ?_
    exact_mod_cast le_abs_div_binary64Ulp hq he
  · rw [← binary64Ulp_eq]; exact herr
  · rw [← binary64Ulp_eq]
    intro htie
    refine roundTiesEven_of_half ?_
    have hscaled : roundTiesEven (q / binary64Ulp q) - q / binary64Ulp q = (binary64Round q - q) / binary64Ulp q := by
      rw [hdef, sub_div, mul_div_cancel_right₀ _ hu.ne']
    rw [hscaled, abs_div, htie, abs_of_pos hu]
    field_simp

/-- Settles O46: another value is a multiple of the same spacing, or there is a multiple between it and `q`. -/
theorem binary64RoundsToNearest : Obligations.Binary64RoundsToNearest := by
  intro q
  obtain ⟨m, e, hround, hm, he, -⟩ := binary64RoundsOnceTiesToEven q
  refine ⟨by rw [hround]; exact isBinary64_zpow_mul hm he, fun y hy => ?_⟩
  by_cases hq : q = 0
  · subst hq
    simp
  obtain ⟨j, rfl⟩ | ⟨hexp, hsmall⟩ := isBinary64_multiple_or_small hy q
  · exact binary64Round_nearest_multiple hq j
  · have hfull := le_abs_div_binary64Ulp hq hexp
    rw [abs_div, abs_of_pos (binary64Ulp_pos q), le_div_iff₀ (binary64Ulp_pos q)] at hfull
    have hcast : ((2 ^ 52 : Int) : Rat) = 2 ^ 52 := by norm_num
    obtain ⟨j, hj⟩ := exists_multiple_nearer (hcast ▸ hsmall.le) (hcast ▸ hfull)
    exact (binary64Round_nearest_multiple hq j).trans hj

/-- Settles O44: an integer of at most 53 bits is a binary64 value, and so is 2^53. -/
theorem ofIntIsExact : Obligations.OfIntIsExact := by
  intro rule
  exact ⟨fun i hi => binary64Round_of_isBinary64 (isBinary64_intCast hi),
    fun x => ⟨Rat.floor_le x, fun j hj => Rat.le_floor_iff.mpr hj⟩⟩

end Sys2Proof.Machine
end

section
/-! PROOFS. One output sample of the resampler under the arithmetics of 00_scope.md R4 (42_resampler.md R87 to R90,
R93): both are rationals with one rounding a result, so that each fact is proved of the two together. -/

namespace Sys2Proof.Machine

/-! ### The two arithmetics as one (R82, R93) -/

/-- The rounding of each result under `NUM`. -/
def roundingOf (num : Num) : Rat → Rat :=
  match num with
  | .binary64 => binary64Round
  | .exact => id

theorem arithOf_eq (num : Num) (rule : TieRule) : arithOf num rule = roundedArith (roundingOf num) rule := by
  cases num <;> rfl

theorem isBinary64_half {i : Int} (hi : |i| < 2 ^ 53) : isBinary64 ((i : Rat) / 2) :=
  ⟨i, -1, hi, by norm_num, by rw [zpow_neg_one, div_eq_mul_inv]⟩

/-- What binary64 can represent is rounded by neither arithmetic. -/
theorem roundingOf_of_isBinary64 (num : Num) {q : Rat} (hq : isBinary64 q) : roundingOf num q = q := by
  cases num with
  | binary64 => exact binary64Round_of_isBinary64 hq
  | exact => rfl

theorem roundingOf_intCast (num : Num) {i : Int} (hi : |i| ≤ 2 ^ 53) : roundingOf num (i : Rat) = i :=
  roundingOf_of_isBinary64 num (isBinary64_intCast hi)

theorem roundingOf_natCast (num : Num) {n : Nat} (hn : n ≤ 2 ^ 53) : roundingOf num (n : Rat) = n := by
  exact_mod_cast roundingOf_intCast num (i := n) (by rw [Nat.abs_cast]; exact_mod_cast hn)

@[simp] theorem roundingOf_zero (num : Num) : roundingOf num 0 = 0 := by
  simpa using roundingOf_natCast num (n := 0) (by norm_num)

@[simp] theorem roundingOf_one (num : Num) : roundingOf num 1 = 1 := by
  simpa using roundingOf_natCast num (n := 1) (by norm_num)

theorem roundingOf_natCast_half (num : Num) {n : Nat} (hn : n < 2 ^ 53) : roundingOf num ((n : Rat) / 2) = n / 2 := by
  have h := roundingOf_of_isBinary64 num (isBinary64_half (i := n) (by rw [Nat.abs_cast]; exact_mod_cast hn))
  rwa [Int.cast_natCast] at h

theorem roundingOf_one_half (num : Num) : roundingOf num (1 / 2) = 1 / 2 := by
  simpa using roundingOf_natCast_half num (n := 1) (by norm_num)

theorem roundingOf_rate (num : Num) (rate : Rate) : roundingOf num (rate.toNat : Rat) = rate.toNat :=
  roundingOf_natCast num (by have := rate.isLt; omega)

theorem abs_pcmSample_le (data : List Byte) (k : Nat) : |pcmSample data k| ≤ 2 ^ 15 := by
  obtain ⟨hmin, hmax⟩ := pcmSample_range data k
  exact abs_le.mpr ⟨by omega, by omega⟩

theorem roundingOf_pcmSample (num : Num) (data : List Byte) (k : Nat) :
    roundingOf num (pcmSample data k : Rat) = pcmSample data k :=
  roundingOf_intCast num ((abs_pcmSample_le data k).trans (by norm_num))

/-- The model's floor is Mathlib's. -/
theorem ratFloor_eq (x : Rat) : x.floor = ⌊x⌋ := (Rat.floor_def x).trans Rat.floor_def'.symm

/-! ### The terms of R87 and R88 as rationals -/

/-- `ratio` (R87). -/
def ratioOf (num : Num) (inRate outRate : Rate) : Rat := roundingOf num ((outRate.toNat : Rat) / (inRate.toNat : Rat))

/-- `m` for an input of `n` samples (R87). -/
def countOf (num : Num) (n : Nat) (ratio : Rat) : Nat := (roundingOf num ((n : Rat) * ratio)).floor.toNat

/-- `p` of output sample `k` (R88). -/
def positionOf (num : Num) (ratio : Rat) (k : Nat) : Rat := roundingOf num ((k : Rat) / ratio)

/-- `v` between two neighbours (R88). -/
def blend (num : Num) (x0 x1 : Int) (frac : Rat) : Rat :=
  roundingOf num (roundingOf num ((x0 : Rat) * roundingOf num (1 - frac)) + roundingOf num ((x1 : Rat) * frac))

/-- Output sample `k` (R88). -/
def outputSample (num : Num) (rule : TieRule) (data : List Byte) (ratio : Rat) (k : Nat) : Except Fault Int :=
  resampleSample (roundedArith (roundingOf num) rule) data (data.length / 2) ratio k

theorem resampleRatio_eq (num : Num) (rule : TieRule) (inRate outRate : Rate) :
    resampleRatio (roundedArith (roundingOf num) rule) inRate outRate = ratioOf num inRate outRate := by
  rw [resampleRatio_rounded, roundingOf_rate, roundingOf_rate, ratioOf]

theorem outputCount_eq {num : Num} {n : Nat} (hn : roundingOf num (n : Rat) = n) (rule : TieRule) (ratio : Rat) :
    outputCount (roundedArith (roundingOf num) rule) n ratio = countOf num n ratio := by
  rw [outputCount_rounded, hn, countOf]

theorem countOf_no_samples (num : Num) (ratio : Rat) : countOf num 0 ratio = 0 := by
  rw [countOf, Nat.cast_zero, zero_mul, roundingOf_zero, ratFloor_zero, Int.toNat_zero]

theorem interpolate_eq (num : Num) (rule : TieRule) (data : List Byte) (i j : Nat) (frac : Rat) :
    interpolate (roundedArith (roundingOf num) rule) (pcmSample data i) (pcmSample data j) frac =
      roundBy rule (blend num (pcmSample data i) (pcmSample data j) frac) := by
  rw [interpolate_rounded, roundingOf_pcmSample, roundingOf_pcmSample, roundingOf_one, blend]

/-! ### Interpolated values (R88, R90, R92(c)) -/

/-- The roundings move an interpolated value by less than one quarter. -/
theorem blend_near (num : Num) (data : List Byte) (i j : Nat) {δ : Rat} (hδ : 0 ≤ δ) (hδ' : δ < 1) :
    |blend num (pcmSample data i) (pcmSample data j) (roundingOf num δ) -
      (pcmSample data i * (1 - δ) + pcmSample data j * δ)| < 1 / 4 := by
  cases num with
  | binary64 => exact binary64_interpolation_near (pcmSample_range data i) (pcmSample_range data j) hδ hδ'
  | exact => simp [blend, roundingOf]

theorem roundBy_of_near (rule : TieRule) {v : Rat} {i : Int} (h : |v - i| < 1 / 2) : roundBy rule v = i := by
  obtain ⟨hlo, hhi⟩ := abs_lt.mp h
  exact le_antisymm (roundBy_le rule (by linarith)) (le_roundBy rule (by linarith))

/-- With the whole weight on the first neighbour the value is that neighbour (R92(d)). -/
theorem roundBy_blend_zero (num : Num) (rule : TieRule) (data : List Byte) (i j : Nat) :
    roundBy rule (blend num (pcmSample data i) (pcmSample data j) 0) = pcmSample data i := by
  have hnear := blend_near num data i j le_rfl one_pos
  rw [roundingOf_zero, sub_zero, mul_one, mul_zero, add_zero] at hnear
  exact roundBy_of_near rule (hnear.trans (by norm_num))

/-- With equal weights it is the midpoint, unrounded. -/
theorem blend_half (num : Num) (data : List Byte) (i j : Nat) :
    blend num (pcmSample data i) (pcmSample data j) (1 / 2) =
      ((pcmSample data i : Rat) + (pcmSample data j : Rat)) / 2 := by
  have hhalf {x : Int} (hx : |x| ≤ 2 ^ 16) : roundingOf num ((x : Rat) / 2) = (x : Rat) / 2 :=
    roundingOf_of_isBinary64 num (isBinary64_half (hx.trans_lt (by norm_num)))
  have hi := abs_pcmSample_le data i
  have hj := abs_pcmSample_le data j
  have hsum := hhalf (x := pcmSample data i + pcmSample data j) ((abs_add_le _ _).trans (by linarith))
  rw [Int.cast_add] at hsum
  rw [blend, show (1 : Rat) - 1 / 2 = 1 / 2 by norm_num, roundingOf_one_half, mul_one_div, mul_one_div,
    hhalf (hi.trans (by norm_num)), hhalf (hj.trans (by norm_num)), ← add_div, hsum]

theorem narrow_of_between {data : List Byte} {i j : Nat} {y : Int}
    (h : between (pcmSample data i) (pcmSample data j) y) : narrow y = .ok y := by
  obtain ⟨hlo, hhi⟩ := h
  have hi := pcmSample_range data i
  have hj := pcmSample_range data j
  exact if_neg (by omega)

/-! ### An output sample whose position is inside the input (R88, R89) -/

section
variable {num : Num} {data : List Byte} {ratio : Rat} {k index : Nat}
  (hk : roundingOf num (k : Rat) = k) (hindex : roundingOf num (index : Rat) = index) (hlt : index < data.length / 2)
include hk hindex hlt

/-- It is interpolated to a value between its two neighbours, or copied at the tail, and no arm faults. -/
theorem outputSample_inside (hfloor : (positionOf num ratio k).floor = index) (rule : TieRule) :
    between (pcmSample data index) (pcmSample data (index + 1))
      (roundBy rule (blend num (pcmSample data index) (pcmSample data (index + 1))
        (roundingOf num (positionOf num ratio k - index)))) ∧
    outputSample num rule data ratio k = .ok (if index + 1 < data.length / 2 then
      roundBy rule (blend num (pcmSample data index) (pcmSample data (index + 1))
        (roundingOf num (positionOf num ratio k - index))) else pcmSample data index) := by
  obtain ⟨hlo, hhi⟩ := floor_bounds (positionOf num ratio k)
  rw [hfloor, Int.cast_natCast] at hlo hhi
  have hδ : 0 ≤ positionOf num ratio k - index := by linarith
  have hδ' : positionOf num ratio k - index < 1 := by linarith
  have hbetween := roundBy_between rule hδ hδ' (blend_near num data index (index + 1) hδ hδ')
  refine ⟨hbetween, ?_⟩
  have hsample := resampleSample_rounded (roundingOf num) rule data ratio k index (by rw [hk]; exact hfloor) hlt
  rw [hk, hindex, interpolate_eq] at hsample
  refine hsample.trans ?_
  split
  · exact narrow_of_between hbetween
  · rfl

/-- At the position of an input sample it is that sample (R92(d)). -/
theorem outputSample_at_input (hp : positionOf num ratio k = index) (rule : TieRule) :
    outputSample num rule data ratio k = .ok (pcmSample data index) := by
  obtain ⟨-, h⟩ := outputSample_inside hk hindex hlt (by rw [hp, ratFloor_eq, Int.floor_natCast]) rule
  rw [h, hp, sub_self, roundingOf_zero, roundBy_blend_zero, ite_self]

/-- Half-way between two input samples it is their rounded midpoint. -/
theorem outputSample_halfway (hp : positionOf num ratio k = index + 1 / 2) (rule : TieRule) :
    outputSample num rule data ratio k = .ok (if index + 1 < data.length / 2 then
      roundBy rule (((pcmSample data index : Rat) + (pcmSample data (index + 1) : Rat)) / 2)
      else pcmSample data index) := by
  have hfloor : (positionOf num ratio k).floor = index := by
    rw [hp, ratFloor_eq]
    exact Int.floor_eq_iff.mpr ⟨by push_cast; linarith, by push_cast; linarith⟩
  obtain ⟨-, h⟩ := outputSample_inside hk hindex hlt hfloor rule
  rw [h, hp, add_sub_cancel_left, roundingOf_one_half, blend_half]

end

/-! ### Where the positions are (R90) -/

/-- The position of an output sample is inside the input, with no bound under `EXACT`. -/
theorem positionOf_inside {num : Num} {inRate outRate : Rate} {n k : Nat} (hin : inRate ≠ 0)
    (hk : k < countOf num n (ratioOf num inRate outRate))
    (hbound : num = .exact ∨ n ≤ 2 ^ 31 ∧ countOf num n (ratioOf num inRate outRate) ≤ 2 ^ 31) :
    0 ≤ positionOf num (ratioOf num inRate outRate) k ∧ positionOf num (ratioOf num inRate outRate) k < n := by
  have hpos : 0 < inRate.toNat := Nat.pos_of_ne_zero fun h => hin (BitVec.eq_of_toNat_eq h)
  cases num with
  | binary64 =>
    obtain ⟨hn, hm⟩ := hbound.resolve_left nofun
    exact binary64_position_inside hpos inRate.isLt outRate.isLt hn hm hk
  | exact =>
    have hratio : 0 ≤ ratioOf .exact inRate outRate := by
      simp only [ratioOf, roundingOf, id]
      positivity
    have hlast : (k : Rat) < n * ratioOf .exact inRate outRate := by
      have hfloor : (k : Int) + 1 ≤ ((n : Rat) * ratioOf .exact inRate outRate).floor := by
        simp only [countOf, roundingOf, id] at hk
        omega
      have := Rat.le_floor_iff.mp hfloor
      push_cast at this
      linarith
    have hratio' : 0 < ratioOf .exact inRate outRate := by
      refine hratio.lt_of_ne fun h0 => ?_
      rw [← h0, mul_zero] at hlast
      exact absurd hlast (not_lt.mpr k.cast_nonneg)
    exact ⟨div_nonneg k.cast_nonneg hratio, (div_lt_iff₀ hratio').mpr hlast⟩

/-- So every output sample has an index into the input, and the integers on the way to it are not rounded. -/
theorem exists_index {num : Num} {inRate outRate : Rate} {n k : Nat} (hin : inRate ≠ 0)
    (hk : k < countOf num n (ratioOf num inRate outRate))
    (hbound : num = .exact ∨ n ≤ 2 ^ 31 ∧ countOf num n (ratioOf num inRate outRate) ≤ 2 ^ 31) :
    ∃ index : Nat, (positionOf num (ratioOf num inRate outRate) k).floor = index ∧ index < n ∧
      roundingOf num (k : Rat) = k ∧ roundingOf num (index : Rat) = index := by
  obtain ⟨hlo, hhi⟩ := positionOf_inside hin hk hbound
  have hfloor : 0 ≤ (positionOf num (ratioOf num inRate outRate) k).floor := Rat.le_floor_iff.mpr hlo
  obtain ⟨index, hindex⟩ := Int.eq_ofNat_of_zero_le hfloor
  have hlt : index < n := by
    have := (floor_bounds (positionOf num (ratioOf num inRate outRate) k)).1.trans_lt hhi
    rw [hindex] at this
    exact_mod_cast this
  refine ⟨index, hindex, hlt, ?_⟩
  rcases hbound with rfl | ⟨hn, hm⟩
  · exact ⟨rfl, rfl⟩
  · exact ⟨roundingOf_natCast num (by omega), roundingOf_natCast num (by omega)⟩

end Sys2Proof.Machine
end

section
/-! PROOFS. The statements of 42_resampler.md: what the checks of R81 let through, the outputs of the computation under
each arithmetic (R87 to R93), and that no step faults (R90). -/

namespace Sys2Proof.Machine

/-! ### The checks in their order (R81) -/

section
variable {inRate outRate : Rate} {data : List Byte} (heven : data.length % 2 = 0)
include heven

theorem exec_resample_equal_rates (s : State) (rate : Rate) :
    exec (.resamplePcm16 rate rate data) s = .next (served s ⟨0x00, 0, data.length, data⟩) := by
  rw [exec, execResamplePcm16, if_neg (by omega), if_pos rfl, returnBuffer_eq]

variable (hne : inRate ≠ outRate)
include hne

theorem exec_resample_zero_inRate (hin : inRate = 0) (s : State) :
    exec (.resamplePcm16 inRate outRate data) s = .refused .reservedRate := by
  rw [exec, execResamplePcm16, if_neg (by omega), if_neg hne, if_pos hin]

theorem exec_resample_computes (hin : inRate ≠ 0) (s : State) :
    exec (.resamplePcm16 inRate outRate data) s =
      resampleWith (arithOf s.params.num s.params.round) inRate outRate data s := by
  rw [exec, execResamplePcm16, if_neg (by omega), if_neg hne, if_neg hin]

end

/-- A fault comes out of the computation only. -/
theorem resampleWith_of_exec_fault {inRate outRate : Rate} {data : List Byte} {s : State} {f : Fault}
    (h : exec (.resamplePcm16 inRate outRate data) s = .fault f) :
    inRate ≠ 0 ∧ resampleWith (arithOf s.params.num s.params.round) inRate outRate data s = .fault f := by
  rw [exec, execResamplePcm16] at h
  simp only [raiseInvalidBufferLength_eq, returnBuffer_eq] at h
  split_ifs at h with hodd hsame hzero
  exact ⟨hzero, h⟩

/-- A response has no output, the input as its output, or the output of the computation. -/
theorem exec_resample_next {inRate outRate : Rate} {data : List Byte} {s : State} {resp : Response}
    (h : exec (.resamplePcm16 inRate outRate data) s = .next (served s resp)) :
    resp.odata = [] ∨ resp.odata = data ∨
      resampleWith (arithOf s.params.num s.params.round) inRate outRate data s = .next (served s resp) := by
  rw [exec, execResamplePcm16] at h
  split at h
  · obtain rfl := next_served_injective h
    exact .inl rfl
  split at h
  · obtain rfl := next_served_injective h
    exact .inr (.inl rfl)
  split at h
  · cases h
  · exact .inr (.inr h)

/-! ### The output of the computation (R87, R88) -/

/-- Where every output sample is defined, the answered buffer holds them in order. -/
theorem resampleWith_outputs {A : Arith} {inRate outRate : Rate} {data : List Byte} {s : State}
    (hfit : withinLenMax s.params.lenMax
      (2 * outputCount A (data.length / 2) (resampleRatio A inRate outRate)) = true)
    (hdef : ∀ k < outputCount A (data.length / 2) (resampleRatio A inRate outRate),
      ∃ y, resampleSample A data (data.length / 2) (resampleRatio A inRate outRate) k = .ok y) :
    ∃ odata : List Byte,
      resampleWith A inRate outRate data s =
        .next (served s ⟨0x00, 0, 2 * outputCount A (data.length / 2) (resampleRatio A inRate outRate), odata⟩) ∧
      odata.length = 2 * outputCount A (data.length / 2) (resampleRatio A inRate outRate) ∧
      ∀ k < outputCount A (data.length / 2) (resampleRatio A inRate outRate),
        resampleSample A data (data.length / 2) (resampleRatio A inRate outRate) k = .ok (pcmSample odata k) := by
  choose! y hy using hdef
  refine ⟨_, (resampleWith_fits hfit hy).trans (returnBuffer_eq _ _ _), ?_, fun k hk => ?_⟩
  · rw [length_flatMap_sampleBytes, List.length_range]
  · obtain ⟨v, hv, hmin, hmax⟩ | herr | herr :=
      resampleSample_cases A data (resampleRatio A inRate outRate) k
    · obtain rfl : y k = v := Except.ok.inj ((hy k hk).symm.trans hv)
      rw [hy k hk, pcmSample_flatMap hk, toInt_tc16 hmin hmax]
    · cases (hy k hk).symm.trans herr
    · cases (hy k hk).symm.trans herr

/-- What the computation has answered are its output samples in order. -/
theorem resampleWith_next {A : Arith} {inRate outRate : Rate} {data : List Byte} {s : State} {resp : Response}
    (h : resampleWith A inRate outRate data s = .next (served s resp)) :
    resp.odata.length = 2 * outputCount A (data.length / 2) (resampleRatio A inRate outRate) ∧
    ∀ k < outputCount A (data.length / 2) (resampleRatio A inRate outRate),
      resampleSample A data (data.length / 2) (resampleRatio A inRate outRate) k = .ok (pcmSample resp.odata k) := by
  obtain ⟨-, hr⟩ | ⟨hfit, y, hy, -⟩ | ⟨-, f, k, -, -, -, -, hr⟩ := resampleWith_cases A inRate outRate data s.params
  · cases (hr s rfl).symm.trans h
  · obtain ⟨odata, hnext, hlen, hout⟩ := resampleWith_outputs hfit fun k hk => ⟨y k, hy k hk⟩
    obtain rfl := next_served_injective (hnext.symm.trans h)
    exact ⟨hlen, hout⟩
  · cases (hr s rfl).symm.trans h

/-- The first output sample that is not defined ends the computation in its fault. -/
theorem resampleWith_first_fault {A : Arith} {inRate outRate : Rate} {data : List Byte} {s : State} {k : Nat}
    {f : Fault} (hfit : withinLenMax s.params.lenMax
      (2 * outputCount A (data.length / 2) (resampleRatio A inRate outRate)) = true)
    (hk : k < outputCount A (data.length / 2) (resampleRatio A inRate outRate))
    (hbefore : ∀ j < k, ∃ y, resampleSample A data (data.length / 2) (resampleRatio A inRate outRate) j = .ok y)
    (hf : resampleSample A data (data.length / 2) (resampleRatio A inRate outRate) k = .error f) :
    resampleWith A inRate outRate data s = .fault f := by
  choose! y hy using hbefore
  exact resampleWith_fault hfit hk hy hf

/-- `resampleWith_outputs` for a request that passes the checks, under the arithmetics of R4 and in the terms of
`ratioOf`, `countOf` and `outputSample`. -/
theorem exec_resample_outputs {inRate outRate : Rate} {data : List Byte} {s : State}
    (heven : data.length % 2 = 0) (hne : inRate ≠ outRate) (hin : inRate ≠ 0)
    (hn : roundingOf s.params.num ((data.length / 2 : Nat) : Rat) = (data.length / 2 : Nat)) {m : Nat}
    (hm : countOf s.params.num (data.length / 2) (ratioOf s.params.num inRate outRate) = m)
    (hfit : withinLenMax s.params.lenMax (2 * m) = true)
    (hdef : ∀ k < m,
      ∃ y, outputSample s.params.num s.params.round data (ratioOf s.params.num inRate outRate) k = .ok y) :
    ∃ odata : List Byte,
      exec (.resamplePcm16 inRate outRate data) s = .next (served s ⟨0x00, 0, 2 * m, odata⟩) ∧
      odata.length = 2 * m ∧
      ∀ k < m, outputSample s.params.num s.params.round data (ratioOf s.params.num inRate outRate) k =
        .ok (pcmSample odata k) := by
  have hcount : outputCount (roundedArith (roundingOf s.params.num) s.params.round) (data.length / 2)
      (resampleRatio (roundedArith (roundingOf s.params.num) s.params.round) inRate outRate) = m := by
    rw [resampleRatio_eq, outputCount_eq hn, hm]
  have h := resampleWith_outputs (A := roundedArith (roundingOf s.params.num) s.params.round)
    (inRate := inRate) (outRate := outRate) (data := data) (s := s)
  rw [hcount, resampleRatio_eq] at h
  rw [exec_resample_computes heven hne hin, arithOf_eq]
  exact h hfit hdef

/-- A zero output rate gives no output sample (R86(c)). -/
theorem exec_resample_zero_outRate {inRate : Rate} {data : List Byte} (heven : data.length % 2 = 0) (hin : inRate ≠ 0)
    (s : State) : exec (.resamplePcm16 inRate 0 data) s = .next (served s ⟨0x00, 0, 0, []⟩) := by
  have hratio : ratioOf s.params.num inRate 0 = 0 := by simp [ratioOf]
  have hcount : outputCount (roundedArith (roundingOf s.params.num) s.params.round) (data.length / 2)
      (resampleRatio (roundedArith (roundingOf s.params.num) s.params.round) inRate 0) = 0 := by
    rw [resampleRatio_eq, hratio, outputCount_rounded, mul_zero, roundingOf_zero, ratFloor_zero, Int.toNat_zero]
  have h := resampleWith_fits (A := roundedArith (roundingOf s.params.num) s.params.round) (inRate := inRate)
    (outRate := 0) (data := data) (s := s) (y := fun _ => 0)
  rw [hcount] at h
  rw [exec_resample_computes heven hin hin, arithOf_eq]
  exact h (withinLenMax_zero _) (fun k hk => absurd hk k.not_lt_zero)

/-! ### No fault (R90) -/

/-- Under the premise of R90 every output sample is defined. -/
theorem outputSample_defined {num : Num} {inRate outRate : Rate} {data : List Byte} {k : Nat} (hin : inRate ≠ 0)
    (hk : k < countOf num (data.length / 2) (ratioOf num inRate outRate))
    (hbound : num = .exact ∨
      data.length / 2 ≤ 2 ^ 31 ∧ countOf num (data.length / 2) (ratioOf num inRate outRate) ≤ 2 ^ 31)
    (rule : TieRule) : ∃ y, outputSample num rule data (ratioOf num inRate outRate) k = .ok y := by
  obtain ⟨index, hfloor, hlt, hk', hindex⟩ := exists_index hin hk hbound
  obtain ⟨-, h⟩ := outputSample_inside hk' hindex hlt hfloor rule
  exact ⟨_, h⟩

theorem le_of_withinLenMax {lenMax n : Nat} (h : withinLenMax (some lenMax) n = true) : n ≤ lenMax :=
  of_decide_eq_true h

/-- The premise of R90 on the parameters: `EXACT`, or a `LEN_MAX` of at most 2^32. -/
def faultless (params : Params) : Prop := params.num = .exact ∨ ∃ lenMax, params.lenMax = some lenMax ∧ lenMax ≤ 2 ^ 32

theorem faultless.roundingOf_half_length {params : Params} {n : Nat} (h : faultless params)
    (hn : withinLenMax params.lenMax n = true) : roundingOf params.num ((n / 2 : Nat) : Rat) = (n / 2 : Nat) := by
  obtain hexact | ⟨lenMax, hL, hle⟩ := h
  · rw [hexact]
    rfl
  · rw [hL] at hn
    have := le_of_withinLenMax hn
    exact roundingOf_natCast _ (by omega)

/-- Lengths within `LEN_MAX` are those of at most 2^31 samples, where `EXACT` needs no bound. -/
theorem faultless.samples_le {params : Params} {n m : Nat} (h : faultless params)
    (hn : withinLenMax params.lenMax n = true) (hm : withinLenMax params.lenMax (2 * m) = true) :
    params.num = .exact ∨ n / 2 ≤ 2 ^ 31 ∧ m ≤ 2 ^ 31 := by
  refine h.imp_right fun ⟨lenMax, hL, hle⟩ => ?_
  rw [hL] at hn hm
  have := le_of_withinLenMax hn
  have := le_of_withinLenMax hm
  omega

/-- On an input within `LEN_MAX` the computation does not fault: its output is within `LEN_MAX` too. -/
theorem resampleWith_ne_fault {inRate outRate : Rate} {data : List Byte} {s : State} {f : Fault}
    (hs : faultless s.params) (hdata : withinLenMax s.params.lenMax data.length = true) (hin : inRate ≠ 0) :
    resampleWith (arithOf s.params.num s.params.round) inRate outRate data s ≠ .fault f := by
  intro hfault
  rw [arithOf_eq] at hfault
  obtain ⟨-, h⟩ | ⟨-, y, -, h⟩ | ⟨hfit, f', k, -, hk, -, hf', -⟩ := resampleWith_cases
    (roundedArith (roundingOf s.params.num) s.params.round) inRate outRate data s.params
  · cases (h s rfl).symm.trans hfault
  · cases (h s rfl).symm.trans hfault
  · rw [resampleRatio_eq] at hfit hk hf'
    rw [outputCount_eq (hs.roundingOf_half_length hdata)] at hfit hk
    obtain ⟨y, hy⟩ := outputSample_defined hin hk (hs.samples_le hdata hfit) s.params.round
    cases hy.symm.trans hf'

/-- The other eight operations answer or refuse. -/
theorem eq_resample_of_exec_fault {i : Instr} {s : State} {f : Fault} (h : exec i s = .fault f) :
    ∃ inRate outRate data, i = .resamplePcm16 inRate outRate data := by
  cases i with
  | encodeAlaw | decodeAlaw | encodeUlaw | decodeUlaw => cases h
  | pcmToAlaw data =>
    obtain ⟨-, hc⟩ | ⟨-, hc⟩ := compressBuffer_cases encodeAlaw data s <;> cases hc.symm.trans h
  | pcmToUlaw data =>
    obtain ⟨-, hc⟩ | ⟨-, hc⟩ := compressBuffer_cases encodeUlaw data s <;> cases hc.symm.trans h
  | alawToPcm data =>
    obtain ⟨-, hc⟩ | ⟨-, hc⟩ := expandBuffer_cases (decodeAlaw s.params.alawDecNeg) data s <;> cases hc.symm.trans h
  | ulawToPcm data =>
    obtain ⟨-, hc⟩ | ⟨-, hc⟩ := expandBuffer_cases decodeUlaw data s <;> cases hc.symm.trans h
  | resamplePcm16 inRate outRate data => exact ⟨inRate, outRate, data, rfl⟩

theorem exec_ne_fault {i : Instr} {s : State} (hs : faultless s.params) (hi : i.wellFormed s.params.lenMax = true)
    (f : Fault) : exec i s ≠ .fault f := by
  intro h
  obtain ⟨inRate, outRate, data, rfl⟩ := eq_resample_of_exec_fault h
  obtain ⟨hin, hfault⟩ := resampleWith_of_exec_fault h
  exact resampleWith_ne_fault hs hi hin hfault

/-- Settles O49: a step runs an instruction whose input decoding has bounded, and that does not fault. -/
theorem noStepFaults : Obligations.NoStepFaults := by
  intro s hs f h
  obtain ⟨-, -, hstep⟩ | ⟨r, s', hf, ⟨e, -, hstep⟩ | ⟨i, hd, hstep⟩⟩ := step_cases s
  · cases hstep.symm.trans h
  · cases hstep.symm.trans h
  · obtain ⟨hparams, -⟩ := fetch_frame hf
    exact exec_ne_fault (hparams ▸ hs) (decode_wellFormed hd) f (hstep.symm.trans h)

/-! ### The statements on the outputs -/

/-- Settles O36: the first two cases are the checks, the third has no output sample to compute. -/
theorem resampleRateCases : Obligations.ResampleRateCases := fun s _ rate heven =>
  ⟨exec_resample_equal_rates heven s rate, fun hrate => exec_resample_zero_inRate heven hrate.symm rfl s,
    fun hrate => exec_resample_zero_outRate heven hrate s⟩

/-- Settles O37: an index that is inside the input is the last one or has a next one. -/
theorem outputSampleUnderAnyArithmetic : Obligations.OutputSampleUnderAnyArithmetic := by
  intro A data ratio k
  dsimp only
  rw [resampleSample_eq]
  dsimp only
  split
  next => rfl
  next hinside =>
    split
    next hnext => rw [if_neg (by omega)]; rfl
    next hlast => rw [if_pos (by omega)]

/-- Settles O58: the output bound, then the loop over the output samples. -/
theorem resampleGivesEverySampleOrStops : Obligations.ResampleGivesEverySampleOrStops := by
  intro s inRate outRate data heven hne hin
  dsimp only
  rw [exec_resample_computes heven hne hin]
  refine ⟨fun hover => ?_, fun hfit => ⟨fun y hy => ?_, fun k hk f hf hbefore =>
    resampleWith_first_fault hfit hk hbefore hf⟩⟩
  · rw [resampleWith, hover]
    rfl
  · obtain ⟨odata, hexec, hlen, hout⟩ := resampleWith_outputs hfit fun k hk => ⟨y k, hy k hk⟩
    exact ⟨odata, hexec, hlen, fun k hk => Except.ok.inj ((hout k hk).symm.trans (hy k hk))⟩

/-- Settles O40: sample 0 is at position 0, and where there is an output there is an input sample there. -/
theorem resampleKeepsFirstSample : Obligations.ResampleKeepsFirstSample := by
  intro s inRate outRate data resp h hne
  obtain hnil | hsame | hwith := exec_resample_next h
  · exact absurd hnil hne
  · rw [hsame]
  · rw [arithOf_eq] at hwith
    obtain ⟨hlen, hout⟩ := resampleWith_next hwith
    rw [resampleRatio_eq] at hlen hout
    have hm : 0 < outputCount (roundedArith (roundingOf s.params.num) s.params.round) (data.length / 2)
        (ratioOf s.params.num inRate outRate) := by
      have := List.length_pos_iff.mpr hne
      omega
    have hn : 0 < data.length / 2 := by
      refine Nat.pos_of_ne_zero fun hzero => ?_
      rw [hzero, outputCount_eq (by simp), countOf_no_samples] at hm
      exact absurd hm (lt_irrefl 0)
    have hzero := outputSample_at_input (num := s.params.num) (ratio := ratioOf s.params.num inRate outRate) (k := 0)
      (index := 0) (by simp) (by simp) hn (by simp [positionOf]) s.params.round
    exact Except.ok.inj ((hout 0 hm).symm.trans hzero)

/-! ### Doubling and halving (R92(e), (f)) -/

theorem ratioOf_double {num : Num} {inRate outRate : Rate} (hin : inRate ≠ 0)
    (hdouble : outRate.toNat = 2 * inRate.toNat) : ratioOf num inRate outRate = 2 := by
  have hpos : (inRate.toNat : Rat) ≠ 0 := by exact_mod_cast fun h => hin (BitVec.eq_of_toNat_eq h)
  rw [ratioOf, hdouble, Nat.cast_mul, mul_div_cancel_right₀ _ hpos]
  exact roundingOf_natCast num (by norm_num)

theorem ratioOf_half {num : Num} {inRate outRate : Rate} (hout : outRate ≠ 0)
    (hhalf : inRate.toNat = 2 * outRate.toNat) : ratioOf num inRate outRate = 1 / 2 := by
  have hpos : (outRate.toNat : Rat) ≠ 0 := by exact_mod_cast fun h => hout (BitVec.eq_of_toNat_eq h)
  rw [ratioOf, hhalf, Nat.cast_mul, div_mul_cancel_right₀ hpos, Nat.cast_ofNat, ← one_div, roundingOf_one_half]

theorem countOf_two (num : Num) {n : Nat} (hn : 2 * n ≤ 2 ^ 53) : countOf num n 2 = 2 * n := by
  have hcast : (n : Rat) * 2 = (2 * n : Nat) := by push_cast; ring
  rw [countOf, hcast, roundingOf_natCast num hn, ratFloor_eq, Int.floor_natCast, Int.toNat_natCast]

theorem countOf_one_half (num : Num) {n : Nat} (hn : n < 2 ^ 53) : countOf num n (1 / 2) = n / 2 := by
  rw [countOf, mul_one_div, roundingOf_natCast_half num hn, ratFloor_eq]
  exact (congrArg Int.toNat (Rat.floor_natCast_div_natCast n 2)).trans (by omega)

/-- Settles O41: output sample `2j` is at input sample `j`, and `2j + 1` half-way to the next. -/
theorem resampleDoubling : Obligations.ResampleDoubling := by
  intro s inRate outRate data lenMax hL hle heven hfit hin hdouble
  have hne : inRate ≠ outRate := by
    rintro rfl
    exact hin (BitVec.eq_of_toNat_eq (by simp; omega))
  have hratio := ratioOf_double (num := s.params.num) hin hdouble
  have hindex (j : Nat) (hj : j ≤ data.length / 2) : roundingOf s.params.num (j : Rat) = j :=
    roundingOf_natCast _ (by omega)
  have hk (k : Nat) (hk : k < data.length) : roundingOf s.params.num (k : Rat) = k := roundingOf_natCast _ (by omega)
  have hinput (j : Nat) (hj : j < data.length / 2) :=
    outputSample_at_input (ratio := 2) (hk (2 * j) (by omega)) (hindex j hj.le) hj (by
      rw [positionOf, Nat.cast_mul, Nat.cast_ofNat, mul_div_cancel_left₀ _ two_ne_zero, hindex j hj.le]) s.params.round
  have hmid (j : Nat) (hj : j < data.length / 2) :=
    outputSample_halfway (ratio := 2) (hk (2 * j + 1) (by omega)) (hindex j hj.le) hj (by
      rw [positionOf, roundingOf_natCast_half _ (by omega)]
      push_cast
      ring) s.params.round
  have hdef (k : Nat) (hk : k < data.length) :
      ∃ y, outputSample s.params.num s.params.round data (ratioOf s.params.num inRate outRate) k = .ok y := by
    rw [hratio]
    obtain ⟨j, rfl | rfl⟩ := Nat.even_or_odd' k
    · exact ⟨_, hinput j (by omega)⟩
    · exact ⟨_, hmid j (by omega)⟩
  obtain ⟨odata, hexec, hlen, hout⟩ := exec_resample_outputs heven hne hin (hindex _ le_rfl)
    (by rw [hratio, countOf_two _ (by omega)]; omega) (by rw [hL]; exact decide_eq_true hfit) hdef
  rw [hratio] at hout
  refine ⟨odata, hexec, hlen, fun j hj => ⟨?_, ?_⟩⟩
  · exact Except.ok.inj ((hout (2 * j) (by omega)).symm.trans (hinput j hj))
  · exact Except.ok.inj ((hout (2 * j + 1) (by omega)).symm.trans (hmid j hj))

/-- Settles O42: output sample `k` is at input sample `2k`. -/
theorem resampleHalving : Obligations.ResampleHalving := by
  intro s inRate outRate data lenMax hL hle heven hfit hout hhalf
  have hout' : outRate.toNat ≠ 0 := fun h => hout (BitVec.eq_of_toNat_eq h)
  have hne : inRate ≠ outRate := by
    rintro rfl
    omega
  have hin : inRate ≠ 0 := by
    rintro rfl
    simp at hhalf
    omega
  have hratio := ratioOf_half (num := s.params.num) hout hhalf
  have hinput (k : Nat) (hk : k < data.length / 4) :=
    have hindex : roundingOf s.params.num ((2 * k : Nat) : Rat) = (2 * k : Nat) := roundingOf_natCast _ (by omega)
    outputSample_at_input (data := data) (ratio := 1 / 2) (roundingOf_natCast s.params.num (n := k) (by omega)) hindex
      (by omega) (by
        rw [positionOf, div_div_eq_mul_div, div_one, mul_comm]
        exact_mod_cast hindex) s.params.round
  obtain ⟨odata, hexec, hlen, hsample⟩ := exec_resample_outputs (m := data.length / 4) heven hne hin
    (roundingOf_natCast _ (by omega)) (by rw [hratio, countOf_one_half _ (by omega)]; omega)
    (by rw [hL]; exact decide_eq_true (by omega)) fun k hk => ⟨_, hratio ▸ hinput k hk⟩
  rw [hratio] at hsample
  exact ⟨odata, hexec, hlen, fun k hk => Except.ok.inj ((hsample k hk).symm.trans (hinput k hk))⟩

/-! ### `EXACT` in whole numbers (R93) -/

theorem countOf_exact (n : Nat) (inRate outRate : Rate) :
    countOf .exact n (ratioOf .exact inRate outRate) = n * outRate.toNat / inRate.toNat := by
  have hfloor := Rat.floor_natCast_div_natCast (n * outRate.toNat) inRate.toNat
  rw [Nat.cast_mul, mul_div_assoc] at hfloor
  rw [countOf, ratFloor_eq]
  exact (congrArg Int.toNat hfloor).trans (by rw [← Int.natCast_div, Int.toNat_natCast])

theorem positionOf_exact (k : Nat) (inRate outRate : Rate) :
    positionOf .exact (ratioOf .exact inRate outRate) k = ((k * inRate.toNat : Nat) : Rat) / (outRate.toNat : Rat) := by
  rw [Nat.cast_mul, ← div_div_eq_mul_div]
  rfl

theorem floor_positionOf_exact (k : Nat) (inRate outRate : Rate) :
    (positionOf .exact (ratioOf .exact inRate outRate) k).floor = (k * inRate.toNat / outRate.toNat : Nat) := by
  rw [positionOf_exact, ratFloor_eq, Rat.floor_natCast_div_natCast]
  rfl

/-- The interpolated value over the common denominator `OUT_RATE`. -/
theorem blend_exact (x0 x1 : Int) (a : Nat) {b : Nat} (hb : b ≠ 0) :
    blend .exact x0 x1 ((a : Rat) / b - (a / b : Nat)) =
      ((x0 : Rat) * (b - (a % b : Nat)) + (x1 : Rat) * (a % b : Nat)) / b := by
  have hb' : (b : Rat) ≠ 0 := by exact_mod_cast hb
  have hdiv : (a : Rat) = b * (a / b : Nat) + (a % b : Nat) := by exact_mod_cast (Nat.div_add_mod a b).symm
  have hfrac : (a : Rat) / b - (a / b : Nat) = (a % b : Nat) / b := by
    rw [sub_eq_iff_eq_add, div_add' _ _ _ hb']
    congr 1
    linarith
  rw [hfrac]
  simp only [blend, roundingOf, id]
  field_simp

/-- Settles O38: the index is a quotient of naturals and the fraction its remainder over `OUT_RATE`. -/
theorem resampleExactComputes : Obligations.ResampleExactComputes := by
  intro s inRate outRate data hnum heven hne hin
  dsimp only
  intro hfit
  have hcount := countOf_exact (data.length / 2) inRate outRate
  have hdef (k : Nat) (hk : k < data.length / 2 * outRate.toNat / inRate.toNat) :=
    outputSample_defined (num := .exact) (outRate := outRate) (data := data) (k := k) hin (hcount ▸ hk) (.inl rfl)
      s.params.round
  have houts := exec_resample_outputs (s := s) (outRate := outRate) heven hne hin
  rw [hnum] at houts
  obtain ⟨odata, hexec, hlen, hout⟩ := houts rfl hcount hfit hdef
  refine ⟨odata, hexec, hlen, fun k hk => ?_⟩
  obtain ⟨index, hfloor, hlt, hk', hindex⟩ :=
    exists_index (num := .exact) (outRate := outRate) (k := k) hin (hcount ▸ hk) (.inl rfl)
  obtain rfl : k * inRate.toNat / outRate.toNat = index := by
    exact_mod_cast (floor_positionOf_exact k inRate outRate).symm.trans hfloor
  have hrate : outRate.toNat ≠ 0 := by
    intro h0
    simp [h0] at hk
  obtain ⟨-, hsample⟩ := outputSample_inside hk' hindex hlt hfloor s.params.round
  refine ⟨hlt, (Except.ok.inj ((hout k hk).symm.trans hsample)).trans ?_⟩
  rw [positionOf_exact, ← blend_exact _ _ _ hrate]
  rfl

/-! ### binary64 (R82, R90, R92(c)) -/

/-- Settles O39: within `LEN_MAX` every position is inside the input. -/
theorem resampleBinary64Computes : Obligations.ResampleBinary64Computes := by
  intro s inRate outRate data lenMax hnum hL hle hdata heven hne hin
  dsimp only
  intro hfit
  have hcount : countOf .binary64 (data.length / 2) (ratioOf .binary64 inRate outRate) ≤ 2 ^ 31 := by
    have : 2 * countOf .binary64 (data.length / 2) (ratioOf .binary64 inRate outRate) ≤ lenMax := hfit
    omega
  have hn : data.length / 2 ≤ 2 ^ 31 := by omega
  have hdef (k : Nat) (hk : k < countOf .binary64 (data.length / 2) (ratioOf .binary64 inRate outRate)) :=
    outputSample_defined hin hk (.inr ⟨hn, hcount⟩) s.params.round
  have houts := exec_resample_outputs (s := s) (outRate := outRate) heven hne hin
  rw [hnum, hL] at houts
  obtain ⟨odata, hexec, hlen, hout⟩ :=
    houts (roundingOf_natCast _ (by omega)) rfl (decide_eq_true hfit) hdef
  refine ⟨odata, hexec, hlen, fun k hk => ?_⟩
  obtain ⟨index, hfloor, hlt, hk', hindex⟩ := exists_index hin hk (.inr ⟨hn, hcount⟩)
  obtain ⟨hbetween, hsample⟩ := outputSample_inside hk' hindex hlt hfloor s.params.round
  have hy := Except.ok.inj ((hout k hk).symm.trans hsample)
  have hfloor' : (binary64Round (k / binary64Round (outRate.toNat / inRate.toNat))).floor.toNat = index :=
    congrArg Int.toNat hfloor
  rw [hfloor']
  refine ⟨hlt, ?_⟩
  split
  next hnext =>
    rw [if_pos hnext] at hy
    exact ⟨hy, hy ▸ hbetween⟩
  next hlast =>
    rw [if_neg hlast] at hy
    exact hy

/-! ### Where the two arithmetics differ (R93) -/

/-- Settles O47: the terms of R87 and R88 on the spec's numbers, evaluated by the kernel. -/
theorem binary64DiffersFromExact : Obligations.Binary64DiffersFromExact := by
  intro rule
  cases rule <;> decide +kernel

end Sys2Proof.Machine
end

section
/-! PROOFS. What a request can meet (60_exceptions.md R100 to R115): the faults and the error response of an operation, the
first condition that decides, the responses a step adds, and blocks side by side. -/

namespace Sys2Proof.Machine

/-! ### Faults (R105) -/

/-- The computation of the resampler ends in one of the two faults of 42_resampler.md R88 only. -/
theorem resampleWith_fault_cases {A : Arith} {inRate outRate : Rate} {data : List Byte} {s : State} {f : Fault}
    (h : resampleWith A inRate outRate data s = .fault f) : f = .indexOutOfRange ∨ f = .narrowOverflow := by
  obtain ⟨-, hr⟩ | ⟨-, y, -, hr⟩ | ⟨-, f', k, hf', -, -, -, hr⟩ := resampleWith_cases A inRate outRate data s.params
  · cases (hr s rfl).symm.trans h
  · cases (hr s rfl).symm.trans h
  · cases (hr s rfl).symm.trans h
    exact hf'

/-- Settles O48: a fault is the resampler's, and comes out of its computation. -/
theorem faultsOnlyInResampler : Obligations.FaultsOnlyInResampler := by
  intro i s f h
  obtain ⟨inRate, outRate, data, rfl⟩ := eq_resample_of_exec_fault h
  obtain ⟨-, hfault⟩ := resampleWith_of_exec_fault h
  exact ⟨⟨inRate, outRate, data, rfl⟩, resampleWith_fault_cases hfault⟩

/-! ### The error response (R101, R103) -/

/-- An odd length is found before anything else of the operation, rates among it. -/
theorem exec_odd_pcm {i : Instr} {data : List Byte} (hi : pcmInput i = some data) (hodd : data.length % 2 = 1)
    (s : State) : exec i s = .next (served s ⟨0x01, 0, 0, []⟩) := by
  cases i with
  | encodeAlaw | decodeAlaw | encodeUlaw | decodeUlaw | alawToPcm | ulawToPcm => cases hi
  | pcmToAlaw | pcmToUlaw =>
    cases hi
    exact compressBuffer_odd hodd s
  | resamplePcm16 =>
    cases hi
    exact if_pos (by omega)

theorem compressBuffer_status {f : Int → Byte} {data : List Byte} {s : State} {resp : Response}
    (h : compressBuffer f data s = .next (served s resp)) :
    resp.status = 0x00 ∨ (resp.status = 0x01 ∧ data.length % 2 = 1) := by
  obtain ⟨hodd, hc⟩ | ⟨-, hc⟩ := compressBuffer_cases f data s <;>
    obtain rfl := next_served_injective (hc.symm.trans h)
  · exact .inr ⟨rfl, hodd⟩
  · exact .inl rfl

theorem expandBuffer_status {f : Byte → Int} {data : List Byte} {s : State} {resp : Response}
    (h : expandBuffer f data s = .next (served s resp)) : resp.status = 0x00 := by
  obtain ⟨-, he⟩ | ⟨-, he⟩ := expandBuffer_cases f data s
  · cases he.symm.trans h
  · obtain rfl := next_served_injective (he.symm.trans h)
    rfl

theorem resampleWith_status {A : Arith} {inRate outRate : Rate} {data : List Byte} {s : State} {resp : Response}
    (h : resampleWith A inRate outRate data s = .next (served s resp)) : resp.status = 0x00 := by
  obtain ⟨-, hr⟩ | ⟨-, y, -, hr⟩ | ⟨-, f, k, -, -, -, -, hr⟩ := resampleWith_cases A inRate outRate data s.params
  · cases (hr s rfl).symm.trans h
  · obtain rfl := next_served_injective ((hr s rfl).symm.trans h)
    rfl
  · cases (hr s rfl).symm.trans h

/-- By the checks of `resample_pcm16` in the order of 42_resampler.md R81. -/
theorem execResamplePcm16_status {inRate outRate : Rate} {data : List Byte} {s : State} {resp : Response}
    (h : execResamplePcm16 inRate outRate data s = .next (served s resp)) :
    resp.status = 0x00 ∨ (resp.status = 0x01 ∧ data.length % 2 = 1) := by
  rw [execResamplePcm16] at h
  split at h
  next hodd =>
    obtain rfl := next_served_injective h
    exact .inr ⟨rfl, by omega⟩
  split at h
  · obtain rfl := next_served_injective h
    exact .inl rfl
  split at h
  · cases h
  · exact .inl (resampleWith_status h)

/-- A response has status `OK`, or answers a PCM input of odd length. -/
theorem exec_status {i : Instr} {s : State} {resp : Response} (h : exec i s = .next (served s resp)) :
    resp.status = 0x00 ∨ (resp.status = 0x01 ∧ ∃ data, pcmInput i = some data ∧ data.length % 2 = 1) := by
  cases i with
  | encodeAlaw | decodeAlaw | encodeUlaw | decodeUlaw =>
    obtain rfl := next_served_injective h
    exact .inl rfl
  | pcmToAlaw data | pcmToUlaw data =>
    exact (compressBuffer_status h).imp_right fun ⟨herror, hodd⟩ => ⟨herror, data, rfl, hodd⟩
  | alawToPcm | ulawToPcm => exact .inl (expandBuffer_status h)
  | resamplePcm16 _ _ data =>
    exact (execResamplePcm16_status h).imp_right fun ⟨herror, hodd⟩ => ⟨herror, data, rfl, hodd⟩

/-- Settles O32: the length check of the three operations, and the status of every response. -/
theorem errorExactlyOnOddPcm : Obligations.ErrorExactlyOnOddPcm := by
  refine ⟨fun s i data hi hodd => exec_odd_pcm hi hodd s, fun s i resp h => ?_⟩
  obtain hok | ⟨herror, hdata⟩ := exec_status h
  · exact ⟨.inl hok, fun herror => absurd (hok.symm.trans herror) (by decide)⟩
  · exact ⟨.inr herror, fun _ => hdata⟩

/-! ### Decoding by the conditions of R107 -/

theorem exists_opNumber {opcode : BitVec 4} (h : ¬ 9 ≤ opcode.toNat) : ∃ op, opcode = opNumber op := by
  have hrows : ∀ opcode : BitVec 4, ¬ 9 ≤ opcode.toNat → ∃ row ∈ opTable, opcode = opNumber row.op := by decide
  obtain ⟨row, -, hrow⟩ := hrows opcode h
  exact ⟨row.op, hrow⟩

theorem opNumber_injective {op op' : Op} (h : opNumber op = opNumber op') : op = op' := by
  revert h
  cases op <;> cases op' <;> decide

/-- A defined opcode is turned away for reserved bits when its header matches no row, or the row's operation leaves a
field unused that is set (30_encoding.md R49 steps 1 and 2). -/
theorem decode_reservedBits {lenMax : Option Nat} {r : Request} (hdefined : ¬ 9 ≤ (headerOp r.req).toNat)
    (h : ∀ op, findOp r.req = some op → unusedFieldsZero op r = false) : decode lenMax r = .error .reservedBits := by
  cases hop : findOp r.req with
  | none => simp [decode, hop, hdefined]
  | some op => simp [decode, hop, h op hop]

theorem decode_lengthOutOfRange {lenMax : Option Nat} {r : Request} {op : Op} (hop : findOp r.req = some op)
    (hunused : unusedFieldsZero op r = true) (hlen : lengthInRange lenMax r = false) :
    decode lenMax r = .error .lengthOutOfRange := by
  simp [decode, hop, hunused, hlen]

section
variable {op : Op} {zero : BitVec 12} {a : Word} {inRate outRate : Rate} {len : Nat} {data : List Byte}

/-- The spec's list of unused fields (30_encoding.md R52) is what the mask of the operation's row leaves out of `A`, with
what step 2 of R49 checks beside the header. -/
theorem not_unusedFieldSet_iff : ¬ unusedFieldSet (opNumber op) a inRate outRate len data ↔
    a.toNat < fieldABound op ∧
      unusedFieldsZero op (request (opNumber op) zero a inRate outRate len data) = true := by
  have ha : a.toNat < 65536 := a.isLt
  have hzero : a.toNat = 0 ↔ a = 0 := BitVec.toNat_inj (y := 0)
  rw [unusedFieldsZero_iff]
  cases op <;> simp [unusedFieldSet, opNumber, fieldABound, request, Op.perSample, ha, hzero]

/-- The second condition of R107 does not hold exactly when the request passes steps 1 and 2 of R49. -/
theorem no_reservedBits_iff : ¬ (zero ≠ 0 ∨ unusedFieldSet (opNumber op) a inRate outRate len data) ↔
    findOp (opNumber op ++ (zero ++ a)) = some op ∧
      unusedFieldsZero op (request (opNumber op) zero a inRate outRate len data) = true := by
  rw [not_or, not_not, not_unusedFieldSet_iff, findOp_eq_some_iff, and_iff_right rfl, and_assoc]
  rfl

theorem decode_request_reservedBits {lenMax : Option Nat}
    (h : zero ≠ 0 ∨ unusedFieldSet (opNumber op) a inRate outRate len data) :
    decode lenMax (request (opNumber op) zero a inRate outRate len data) = .error .reservedBits := by
  refine decode_reservedBits ?_ fun op' hop => ?_
  · have := opNumber_le_eight op
    rw [request, headerOp_append]
    omega
  · obtain ⟨hopcode, -, -⟩ := findOp_eq_some_iff.mp hop
    obtain rfl := opNumber_injective hopcode
    rw [← Bool.not_eq_true]
    exact fun hunused => no_reservedBits_iff.mpr ⟨hop, hunused⟩ h

/-- The third condition of R107 does not hold exactly when the request passes step 3 of R49. -/
theorem lengthInRange_request_iff {lenMax : Option Nat} {opcode : BitVec 4} :
    lengthInRange lenMax (request opcode zero a inRate outRate len data) = true ↔
      ¬ (len ≠ data.length ∨ withinLenMax lenMax len = false) := by
  simp [lengthInRange, request]

theorem decode_request_lengthOutOfRange {lenMax : Option Nat}
    (hbits : ¬ (zero ≠ 0 ∨ unusedFieldSet (opNumber op) a inRate outRate len data))
    (h : len ≠ data.length ∨ withinLenMax lenMax len = false) :
    decode lenMax (request (opNumber op) zero a inRate outRate len data) = .error .lengthOutOfRange := by
  obtain ⟨hop, hunused⟩ := no_reservedBits_iff.mp hbits
  refine decode_lengthOutOfRange hop hunused ?_
  rw [← Bool.not_eq_true, lengthInRange_request_iff, not_not]
  exact h

theorem decode_request_accepted {lenMax : Option Nat}
    (hbits : ¬ (zero ≠ 0 ∨ unusedFieldSet (opNumber op) a inRate outRate len data))
    (hlength : ¬ (len ≠ data.length ∨ withinLenMax lenMax len = false)) :
    decode lenMax (request (opNumber op) zero a inRate outRate len data) =
      .ok (assemble op (request (opNumber op) zero a inRate outRate len data)) := by
  obtain ⟨hop, hunused⟩ := no_reservedBits_iff.mp hbits
  exact decode_of_checks hop hunused (lengthInRange_request_iff.mpr hlength)

end

/-! ### The first condition that holds decides (R107) -/

theorem pcmInput_assemble {op : Op} (h : opNumber op = 0x4 ∨ opNumber op = 0x6 ∨ opNumber op = 0x8) (r : Request) :
    pcmInput (assemble op r) = some r.data := by
  cases op with
  | pcmToAlaw | pcmToUlaw | resamplePcm16 => rfl
  | encodeAlaw | decodeAlaw | encodeUlaw | decodeUlaw | alawToPcm | ulawToPcm => exact absurd h (by decide)

/-- The computation of the resampler, once its output fits, gives a response with status `OK` or faults. -/
theorem resampleWith_answers {A : Arith} {inRate outRate : Rate} {data : List Byte} {s : State}
    (hfit : withinLenMax s.params.lenMax
      (2 * outputCount A (data.length / 2) (resampleRatio A inRate outRate)) = true) :
    (∃ resp : Response, resampleWith A inRate outRate data s = .next (served s resp) ∧ resp.status = 0x00) ∨
      ∃ f, resampleWith A inRate outRate data s = .fault f := by
  obtain ⟨hover, -⟩ | ⟨-, y, -, hr⟩ | ⟨-, f, k, -, -, -, -, hr⟩ := resampleWith_cases A inRate outRate data s.params
  · cases hover.symm.trans hfit
  · exact .inl ⟨_, hr s rfl, rfl⟩
  · exact .inr ⟨f, hr s rfl⟩

theorem resampleWith_refused {A : Arith} {inRate outRate : Rate} {data : List Byte} {s : State}
    (hover : withinLenMax s.params.lenMax
      (2 * outputCount A (data.length / 2) (resampleRatio A inRate outRate)) = false) :
    resampleWith A inRate outRate data s = .refused .lengthOutOfRange := by
  simp [resampleWith, hover]

section
variable {s : State} {op : Op} {r : Request}
    (heven : opNumber op = 0x4 ∨ opNumber op = 0x6 ∨ opNumber op = 0x8 → r.data.length % 2 = 0)
    (hrates : opNumber op = 0x8 → r.inRate ≠ r.outRate ∧ r.inRate ≠ 0)
include heven hrates

/-- The output bound is the last condition, of the operations whose output may be longer than their input. -/
theorem exec_assemble_output_over
    (hover : withinLenMax s.params.lenMax (boundedOutputLength s (opNumber op) r.inRate r.outRate r.data) = false) :
    exec (assemble op r) s = .refused .lengthOutOfRange := by
  cases op with
  | encodeAlaw | decodeAlaw | encodeUlaw | decodeUlaw | pcmToAlaw | pcmToUlaw =>
    exact absurd hover (by simp [boundedOutputLength, opNumber])
  | alawToPcm | ulawToPcm => exact expandBuffer_refused hover
  | resamplePcm16 =>
    obtain ⟨hne, hin⟩ := hrates rfl
    exact (exec_resample_computes (heven (by decide)) hne hin s).trans (resampleWith_refused hover)

/-- An operation that meets none of the conditions gives a response with status `OK`, or is the resampler and faults. -/
theorem exec_assemble_output_fits
    (hfit : withinLenMax s.params.lenMax (boundedOutputLength s (opNumber op) r.inRate r.outRate r.data) = true) :
    (∃ resp : Response, exec (assemble op r) s = .next (served s resp) ∧ resp.status = 0x00) ∨
      (opNumber op = 0x8 ∧ ∃ f, exec (assemble op r) s = .fault f) := by
  cases op with
  | encodeAlaw | decodeAlaw | encodeUlaw | decodeUlaw => exact .inl ⟨_, rfl, rfl⟩
  | pcmToAlaw | pcmToUlaw => exact .inl ⟨_, compressBuffer_even (heven (by decide)) s, rfl⟩
  | alawToPcm | ulawToPcm => exact .inl ⟨_, expandBuffer_fits hfit, rfl⟩
  | resamplePcm16 =>
    obtain ⟨hne, hin⟩ := hrates rfl
    rw [assemble, exec_resample_computes (heven (by decide)) hne hin s]
    exact (resampleWith_answers hfit).imp_right fun hfault => ⟨rfl, hfault⟩

end

/-- Settles O35: the decoder's refusals, then the conditions that the operation itself checks, each where the ones before it
do not hold. -/
theorem priorityOfConditions : Obligations.PriorityOfConditions := by
  intro s opcode zero a inRate outRate len data
  dsimp only
  rw [step_serving]
  split_ifs with hreserved hbits hlength hodd hsame hzero hover
  · rw [decode_reservedOpcode hreserved]
    rfl
  all_goals obtain ⟨op, rfl⟩ := exists_opNumber hreserved
  · rw [decode_request_reservedBits hbits]
    rfl
  · rw [decode_request_lengthOutOfRange hbits hlength]
    rfl
  all_goals
    rw [decode_request_accepted hbits hlength]
    obtain rfl : len = data.length := not_not.mp (not_or.mp hlength).1
  · exact exec_odd_pcm (pcmInput_assemble hodd.1 _) hodd.2 _
  all_goals
    have heven : opNumber op = 0x4 ∨ opNumber op = 0x6 ∨ opNumber op = 0x8 → data.length % 2 = 0 :=
      fun hop => Nat.mod_two_ne_one.mp fun h => hodd ⟨hop, h⟩
  · obtain ⟨hop, rfl⟩ := hsame
    obtain rfl := opNumber_injective (op' := .resamplePcm16) hop
    exact exec_resample_equal_rates (heven (by decide)) _ _
  · obtain ⟨hop, hin⟩ := hzero
    obtain rfl := opNumber_injective (op' := .resamplePcm16) hop
    exact exec_resample_zero_inRate (heven (by decide)) (fun h => hsame ⟨rfl, h⟩) hin _
  all_goals
    have hrates : opNumber op = 0x8 → inRate ≠ outRate ∧ inRate ≠ 0 :=
      fun hop => ⟨fun h => hsame ⟨hop, h⟩, fun h => hzero ⟨hop, h⟩⟩
  · exact exec_assemble_output_over heven hrates hover
  · exact exec_assemble_output_fits heven hrates (Bool.eq_true_of_not_eq_false hover)

/-! ### One response for each request (R115) -/

/-- A request that is taken is one less to answer. -/
theorem fetch_outstanding {s s' : State} {r : Request} (h : fetch s = some (r, s')) :
    s.outstanding = s'.program.length + 1 := by
  obtain ⟨-, -, hf⟩ | ⟨_, hbusy, hf⟩ | ⟨_, rest, hidle, hprogram, hf⟩ := fetch_cases s
  · cases hf.symm.trans h
  · cases hf.symm.trans h
    rw [State.outstanding, hbusy]
  · cases hf.symm.trans h
    rw [State.outstanding, hidle, hprogram]
    rfl

/-- Settles O52: a step has found nothing to take, or adds the response of the request it took. -/
theorem oneResponsePerRequest : Obligations.OneResponsePerRequest := by
  intro s t h
  obtain ⟨-, -, rfl⟩ | ⟨r, s', resp, hf, rfl, -⟩ := step_next h
  · exact ⟨List.prefix_rfl, rfl⟩
  · obtain ⟨-, hresponses⟩ := fetch_frame hf
    have hleft : (served s' resp).outstanding = s'.program.length := rfl
    rw [served_responses, hresponses, hleft, fetch_outstanding hf, List.length_append, List.length_singleton]
    exact ⟨List.prefix_append _ _, by omega⟩

/-- Settles O53: `step_serving_eq_respond`. -/
theorem responseDependsOnRequestOnly : Obligations.ResponseDependsOnRequestOnly := step_serving_eq_respond

/-! ### Blocks side by side (R114) -/

/-- A step of one block leaves every other as it was. -/
theorem stepInstance_next_other {nInst : Nat} {sys sys' : System nInst} {i j : Fin nInst} (hij : i ≠ j)
    (h : stepInstance sys i = .next sys') : sys'[j] = sys[j] := by
  obtain ⟨t, -, rfl⟩ := stepInstance_next.mp h
  simp [Fin.val_inj, hij]

/-- Settles O57: what the second block does depends on its own state only, which the first leaves as it was; and
replacing two blocks' states commutes. -/
theorem instancesAreIndependent : Obligations.InstancesAreIndependent := by
  intro nInst sys sys' i j hij h
  have hj : sys'[j] = sys[j] := stepInstance_next_other hij h
  refine ⟨hj, fun f hf => ?_, fun reason hr => ?_, fun sys'' h' => ?_⟩
  · rw [stepInstance_fault] at hf ⊢
    rwa [hj]
  · rw [stepInstance_refused] at hr ⊢
    rwa [hj]
  · have hi : sys''[i] = sys[i] := stepInstance_next_other hij.symm h'
    obtain ⟨t, hstep, rfl⟩ := stepInstance_next.mp h
    obtain ⟨u, hstep', rfl⟩ := stepInstance_next.mp h'
    refine ⟨(sys.set i t).set j u, stepInstance_next.mpr ⟨u, by rwa [hj], rfl⟩,
      stepInstance_next.mpr ⟨t, by rwa [hi], ?_⟩⟩
    exact Vector.set_comm _ _ (by simpa [Fin.val_inj] using hij)

end Sys2Proof.Machine
end

section
/-! PROOFS. Between requests (70_reset_and_hazards.md): what the host may issue, what a reset drops, and what every step
keeps. -/

namespace Sys2Proof.Machine

/-! ### Issuing a request (R124, 93_implementation_defined.md U14) -/

theorem issue_of_idle {s : State} (h : s.busy = .idle) (r : Request) : s.issue r = some (serving s r) := by
  rw [State.issue, h]
  rfl

theorem issue_of_busy {s : State} {held : Request} (h : s.busy = .serving held) (r : Request) : s.issue r = none := by
  rw [State.issue, h]

/-- Only an idle block takes a request, and all that changes is that it is in flight. -/
theorem issue_eq_some {s t : State} {r : Request} : s.issue r = some t ↔ s.busy = .idle ∧ serving s r = t := by
  cases h : s.busy with
  | idle => simp [issue_of_idle h]
  | serving held => simp [issue_of_busy h]

/-- Settles O56: `issue_of_idle` and `issue_of_busy`. -/
theorem busyBlockTakesNoRequest : Obligations.BusyBlockTakesNoRequest :=
  fun _ r => ⟨fun hidle => issue_of_idle hidle r, fun _ hheld => issue_of_busy hheld r⟩

/-! ### Reset (R120, R121) -/

/-- Resetting a block that was idle before it took a request undoes the taking. -/
theorem resetBlock_serving {s : State} (h : s.busy = .idle) (r : Request) : (serving s r).resetBlock = s := by
  cases s
  cases h
  rfl

theorem reset_responsesLegal : State.reset.responsesLegal := List.forall_mem_nil _

/-- Settles O55: the fields of `State.reset` are read off, and a reset after an issue gives back the state before it. -/
theorem resetLeavesIdle : Obligations.ResetLeavesIdle := by
  refine ⟨rfl, rfl, rfl, rfl, rfl, reset_responsesLegal, fun _ => rfl, fun s dropped r r' h => ?_⟩
  obtain ⟨hidle, rfl⟩ := issue_eq_some.mp h
  rw [resetBlock_serving hidle]

/-! ### What every step keeps (R123(c), R124) -/

/-- A step that answers a next state ends with the block idle: it was idle with nothing to take, or has given the
response of the request it took. -/
theorem step_next_busy {s t : State} (h : step s = .next t) : t.busy = .idle := by
  obtain ⟨hidle, -, rfl⟩ | ⟨_, s', resp, -, rfl, -⟩ := step_next h
  · exact hidle
  · exact served_busy s' resp

/-- Settles O51: `step_next_params` and `step_next_busy`. -/
theorem stepKeepsParametersAndEndsIdle : Obligations.StepKeepsParametersAndEndsIdle :=
  fun _ _ h => ⟨step_next_params h, step_next_busy h⟩

end Sys2Proof.Machine
end
